-- ==== Sys2Proof/Config.lean ====
section
/-! DEFINITION. The two open parameters of 00_scope.md rule R8. Both are constants without a body: nothing in Lean can
evaluate them, so a theorem of the model holds for every value of each (notes/assumptions/3.md and 5.md). -/

namespace Sys2Proof

/-- The values of the parameter MIX_ORDER (00_scope.md rule R8, 44_fold32.md rule R221). -/
inductive MixOrder where
  /-- `mur`'s first argument is x[63:32]. -/
  | hiLo
  /-- `mur`'s first argument is x[31:0]. -/
  | loHi
  deriving DecidableEq, Repr, Inhabited

/-- MAX_LEN, the capacity of INBUF in bytes: open (rule R8, decision D3). DESIGN CHOICE of form, safe: log entry 3. -/
opaque Config.maxLen : Nat

/-- MIX_ORDER: open (rule R8, decision D19). DESIGN CHOICE of form, safe: log entry 5. -/
opaque Config.mixOrder : MixOrder

end Sys2Proof
end

