-- ==== Sys2Proof/Syntax.lean ====
section
/-! DEFINITION. The 19 commands of FH64-CMD version 1, in the order of spec/opcode_table.json (30_encoding.md rule R83). A
command word holds no register fields and no immediates (rule R82), so no constructor has an argument. -/

namespace Sys2Proof

/-- A command of 30_encoding.md rule R83. -/
inductive Instr where
  | fetch8
  | fetch32
  | fetch64
  | rotr64
  | rotr32
  | shiftmix
  | combine16
  | weakmix
  | weakmixMem
  | hash0to16
  | hash17to32
  | hash33to64
  | blockInit
  | blockStep
  | finalize
  | mur
  | mix64to32
  | hash64
  | hash32
  deriving DecidableEq, Repr

end Sys2Proof
end

