-- ==== Sys2Proof/Word.lean ====
section
/-! DEFINITION. The fixed-width unsigned integers of 00_scope.md rules R9 to R13. Arithmetic on them is that of BitVec, which
wraps (rule R10). -/

namespace Sys2Proof

/-- `u8` of rule R9. -/
abbrev Byte := BitVec 8

/-- `u32` of rule R9, the narrow width HALF of rule R8. -/
abbrev Half := BitVec 32

/-- `u64` of rule R9, the data-path width WORD of rule R8. -/
abbrev Word := BitVec 64

/-- A 128-bit pair: two independent 64-bit lanes (rule R13). -/
structure Pair where
  lo : Word
  hi : Word
  deriving DecidableEq, Repr

end Sys2Proof
end

