-- ==== Sys2Proof/WellFormed.lean ====
section
/-! DEFINITION. What is well formed: a command word (30_encoding.md rules R81 and R85), the argument of HOST_LOAD
(10_state.md rules R22 and R44) and an instruction. -/

namespace Sys2Proof

/-- The 19 assigned values of OPC, as 30_encoding.md rule R83 lists them. -/
def assignedOpcodes : List (BitVec 8) :=
  [0x01, 0x02, 0x03, 0x10, 0x11, 0x12, 0x13, 0x14, 0x15, 0x20, 0x21, 0x22, 0x30, 0x31, 0x32, 0x40, 0x41, 0x50, 0x51]

/-- RSV, bits [31:8], is 0 (rule R81). -/
def rsvClear (w : BitVec 32) : Bool := w.extractLsb' 8 24 == 0

/-- OPC, bits [7:0], is assigned (rule R83). -/
def opcAssigned (w : BitVec 32) : Bool := assignedOpcodes.contains (w.extractLsb' 0 8)

/-- A word is legal exactly when RSV is 0 and OPC is assigned (rule R85). -/
def wordWellFormed (w : BitVec 32) : Bool := rsvClear w && opcAssigned w

/-- HOST_LOAD takes at most MAX_LEN bytes (10_state.md rule R44). -/
def loadFits (maxLen : Nat) (b : List Byte) : Bool := b.length ≤ maxLen

/-- LEN, a `u64`, can hold the number of bytes (10_state.md rule R22). DEDUCED, safe: log entry 4. -/
def loadCountable (b : List Byte) : Bool := b.length < 2 ^ 64

/-- A HOST_LOAD that is an action of the model. -/
def loadWellFormed (maxLen : Nat) (b : List Byte) : Bool := loadFits maxLen b && loadCountable b

/-- A command has no operand field (rule R82), so every term of Instr is well formed: the checks are on the word it comes from. -/
def Instr.wellFormed (_ : Instr) : Bool := true

end Sys2Proof
end

