-- ==== Sys2Proof/Decode.lean ====
section
/-! DEFINITION. The decoder of 30_encoding.md rule R84, total on 32-bit words and refusing by name, and the encoder of
rule R83. -/

namespace Sys2Proof

/-- Why a word is ILLEGAL (30_encoding.md rule R85). -/
inductive Illegal where
  /-- RSV, bits [31:8], is not 0. -/
  | reservedNotZero (rsv : BitVec 24)
  /-- OPC is not assigned. -/
  | unassignedOpc (opc : BitVec 8)
  deriving DecidableEq, Repr

/-- The command an OPC selects (rule R83), by the order of rule R84. -/
def decodeOpc (opc : BitVec 8) : Except Illegal Instr :=
  match opc with
  | 0x01#8 => .ok .fetch8
  | 0x02#8 => .ok .fetch32
  | 0x03#8 => .ok .fetch64
  | 0x10#8 => .ok .rotr64
  | 0x11#8 => .ok .rotr32
  | 0x12#8 => .ok .shiftmix
  | 0x13#8 => .ok .combine16
  | 0x14#8 => .ok .weakmix
  | 0x15#8 => .ok .weakmixMem
  | 0x20#8 => .ok .hash0to16
  | 0x21#8 => .ok .hash17to32
  | 0x22#8 => .ok .hash33to64
  | 0x30#8 => .ok .blockInit
  | 0x31#8 => .ok .blockStep
  | 0x32#8 => .ok .finalize
  | 0x40#8 => .ok .mur
  | 0x41#8 => .ok .mix64to32
  | 0x50#8 => .ok .hash64
  | 0x51#8 => .ok .hash32
  | other => .error (.unassignedOpc other)

/-- `decode(w)` of rule R84. -/
def decode (w : BitVec 32) : Except Illegal Instr :=
  if w.extractLsb' 8 24 ≠ 0 then .error (.reservedNotZero (w.extractLsb' 8 24)) else decodeOpc (w.extractLsb' 0 8)

/-- The OPC of a command, by the table of rule R83. -/
def opcode : Instr → BitVec 8
  | .fetch8 => 0x01
  | .fetch32 => 0x02
  | .fetch64 => 0x03
  | .rotr64 => 0x10
  | .rotr32 => 0x11
  | .shiftmix => 0x12
  | .combine16 => 0x13
  | .weakmix => 0x14
  | .weakmixMem => 0x15
  | .hash0to16 => 0x20
  | .hash17to32 => 0x21
  | .hash33to64 => 0x22
  | .blockInit => 0x30
  | .blockStep => 0x31
  | .finalize => 0x32
  | .mur => 0x40
  | .mix64to32 => 0x41
  | .hash64 => 0x50
  | .hash32 => 0x51

/-- The word of a command: RSV is 0 (rule R81). -/
def encode (i : Instr) : BitVec 32 := (opcode i).setWidth 32

/-- The 32-bit command word whose low `nbits` bits are those of `w` and whose other bits are 0. -/
def tableWord (nbits w : Nat) : BitVec 32 := BitVec.ofNat 32 (w % 2 ^ nbits)

/-- What the decoder reads from a table row's bits. A command word has exactly 32 bits (rule R80), so a longer row is none. -/
def decodeTableWord (nbits w : Nat) : Option Instr :=
  if nbits ≤ 32 then (decode (tableWord nbits w)).toOption else none

end Sys2Proof
end

