-- ==== Sys2Proof/Machine/Constants.lean ====
section
/-! DEFINITION. The fixed constants of 10_state.md rule R36. All but K2 and SEED reach the spec from general knowledge:
UNVERIFIED, unsafe: log entry 11. -/

namespace Sys2Proof.Machine

def k0 : Word := 0xc3a5c85c97cb3127
def k1 : Word := 0xb492b66fbe98f273
def k2 : Word := 0x9ae16a3b2f90404f
def c1 : Half := 0xcc9e2d51
def c2 : Half := 0x1b873593
def seed : Word := 81

end Sys2Proof.Machine
end

