-- ==== Sys2Proof/Machine/State.lean ====
section
/-! DEFINITION. The state of FH64-CORE as plain data (10_state.md rule R21), what the host can do to it (rule R43), the fault
causes (60_exceptions.md rule R261), and the reset state (70_reset_and_hazards.md rules R300 and R301). -/

namespace Sys2Proof.Machine

/-- INBUF as (offset, byte) cells in canonical form: offsets strictly rising, no byte 0 listed. An unlisted offset reads 0.
DESIGN CHOICE, safe: log entry 6. -/
abbrev Memory := List Host.Cell

/-- The sequencer of 10_state.md rule R32. The value 3 is never reached and is left out (93_implementation_defined.md item
18). DESIGN CHOICE, safe: log entry 12. -/
inductive Seq where
  /-- No block sequence is open. -/
  | idle
  /-- BLOCK_INIT has run and at least one BLOCK_STEP is due. -/
  | loop
  /-- The loop is over and FINALIZE is due. -/
  | tail
  deriving DecidableEq, Repr

/-- The block-state registers, the second register file (10_state.md rules R26 to R31). -/
structure BlockRegs where
  /-- X -/
  x : Word
  /-- Y -/
  y : Word
  /-- Z -/
  z : Word
  /-- V_LO and V_HI -/
  v : Pair
  /-- W_LO and W_HI -/
  w : Pair
  /-- S, the offset of the current chunk -/
  s : Word
  /-- END, the offset at which the loop stops -/
  endOff : Word
  /-- LAST64, the offset of the final window -/
  last64 : Word
  /-- MUL, the multiplier of the final pass -/
  mul : Word
  deriving DecidableEq, Repr

/-- The host's five actions (10_state.md rule R43). -/
inductive HostAction where
  /-- RESET (70_reset_and_hazards.md rule R300) -/
  | reset
  /-- HOST_LOAD(b) (10_state.md rule R44) -/
  | load (b : List Byte)
  /-- WRITE of a register by its number (rule R38) -/
  | write (num : BitVec 8) (v : Word)
  /-- ISSUE of a command word (rule R45) -/
  | issue (w : BitVec 32)
  /-- READ of a register by its number (rule R38) -/
  | read (num : BitVec 8)
  deriving DecidableEq, Repr

/-- A check of 60_exceptions.md rule R266 that failed, with what the fault concerns (rule R261). -/
inductive Trap where
  /-- ILLEGAL_CMD, with the word (rule R267) -/
  | illegalCmd (w : BitVec 32)
  /-- SEQUENCE, with the word (rule R268) -/
  | sequence (w : BitVec 32)
  /-- BAND_LEN, with LEN (rule R269) -/
  | bandLen (len : Word)
  /-- OOB_READ, with the offset and the width of the failing read (rule R270) -/
  | oobRead (off width : Nat)
  deriving DecidableEq, Repr

/-- The state of FH64-CORE (10_state.md rule R21), and the host's side of a run (`pending`, `seen`: the model's own fields). -/
structure State where
  /-- INBUF -/
  inbuf : Memory
  /-- LEN -/
  len : Word
  op0 : Word
  op1 : Word
  op2 : Word
  op3 : Word
  op4 : Word
  op5 : Word
  res0 : Word
  res1 : Word
  /-- X, Y, Z, V_LO, V_HI, W_LO, W_HI, S, END, LAST64, MUL -/
  blk : BlockRegs
  /-- SEQ -/
  seq : Seq
  /-- FAULT_CAUSE: CODE in [7:0], WIDTH in [15:8] -/
  faultCause : Word
  /-- FAULT_INFO -/
  faultInfo : Word
  /-- The host's actions not yet performed, the next one first. The model's own field, DESIGN CHOICE, safe: log entry 1. -/
  pending : List HostAction
  /-- The values the host's READs returned, oldest first. The model's own field, DESIGN CHOICE, safe: log entry 13. -/
  seen : List Word
  deriving DecidableEq, Repr

/-- What stops the machine outside the state the spec gives it: nothing does. A fault of 60_exceptions.md is a NEXT state, with
FAULT_CAUSE and FAULT_INFO written (rule R263), so this type has no constructor and no step can answer a fault. DEDUCED, safe:
log entry 8. -/
inductive Fault where
  deriving DecidableEq, Repr

/-- What the model refuses. -/
inductive Refusal where
  /-- Raised by an arm of exec whose instruction has no meaning yet (none is left). Safe. -/
  | notModelled (mnemonic : String)
  /-- Raised by HOST_LOAD of more than MAX_LEN bytes, which is not an action of the model (10_state.md rule R44,
  60_exceptions.md rule R271: "a model refuses it rather than faulting"). Safe: log entry 7. -/
  | loadOverCapacity (n : Nat)
  /-- Raised by HOST_LOAD of 2^64 bytes or more, whose number LEN, a `u64`, cannot hold (10_state.md rule R22). Safe: log
  entry 4. -/
  | loadOverLen (n : Nat)
  deriving DecidableEq, Repr

/-- The block registers after reset (70_reset_and_hazards.md rule R301). -/
def BlockRegs.reset : BlockRegs :=
  { x := 0, y := 0, z := 0, v := ⟨0, 0⟩, w := ⟨0, 0⟩, s := 0, endOff := 0, last64 := 0, mul := 0 }

/-- The machine right after reset, which is also the state at power-on (70_reset_and_hazards.md rules R300 to R302). The host's
own fields are empty: log entries 1 and 13. -/
def State.reset : State :=
  { inbuf := [], len := 0, op0 := 0, op1 := 0, op2 := 0, op3 := 0, op4 := 0, op5 := 0, res0 := 0, res1 := 0,
    blk := .reset, seq := .idle, faultCause := 0, faultInfo := 0, pending := [], seen := [] }

end Sys2Proof.Machine
end

