-- ==== Sys2Proof/Machine/Flags.lean ====
section
/-! DEFINITION. The status bits. FH64-CORE has no condition codes, carry or overflow (10_state.md rule R40): its only flags are
HALTED and SEQ, read through STATUS (rule R35). -/

namespace Sys2Proof.Machine

/-- The two bits of SEQ (10_state.md rule R32). -/
def Seq.code : Seq → BitVec 2
  | .idle => 0
  | .loop => 1
  | .tail => 2

/-- CODE, FAULT_CAUSE[7:0] (rule R33). -/
def State.causeCode (s : State) : BitVec 8 := s.faultCause.extractLsb' 0 8

/-- WIDTH, FAULT_CAUSE[15:8] (rule R33). -/
def State.causeWidth (s : State) : BitVec 8 := s.faultCause.extractLsb' 8 8

/-- The block is halted exactly when CODE is not 0 (rule R35, 60_exceptions.md rule R264). -/
def State.halted (s : State) : Bool := s.causeCode != 0

/-- STATUS, computed on each read: HALTED in [0], SEQ in [2:1], 0 above (rule R35). -/
def State.status (s : State) : Word := (s.seq.code ++ BitVec.ofBool s.halted).setWidth 64

end Sys2Proof.Machine
end

