-- ==== Sys2Proof/Machine/Ops.lean ====
section
/-! DEFINITION. The shared operations: reading and loading INBUF (20_memory.md rule R61, 10_state.md rule R44), writing result
and block registers, taking a fault (60_exceptions.md rules R261 to R263), leaving it by RESET (rule R265), and completing a
command all or nothing (rule R262). -/

namespace Sys2Proof.Machine

/-! ### INBUF -/

/-- The byte of INBUF at an offset; an unlisted offset reads 0 (log entry 6). -/
def Memory.byteAt : Memory → Nat → Byte
  | [], _ => 0
  | (a, b) :: rest, off => if a = off then b else Memory.byteAt rest off

/-- The cells of the bytes `b` placed at `base` and above. -/
def Memory.ofBytesAt (base : Nat) : List Byte → Memory
  | [] => []
  | b :: rest => if b = 0 then Memory.ofBytesAt (base + 1) rest else (base, b) :: Memory.ofBytesAt (base + 1) rest

/-- INBUF after HOST_LOAD(b): INBUF[i] = b[i] (10_state.md rule R44). -/
def Memory.ofBytes (b : List Byte) : Memory := Memory.ofBytesAt 0 b

/-- Offsets strictly rising from `lo` on, and no byte 0 listed. -/
def Memory.wfFrom (lo : Nat) : Memory → Bool
  | [] => true
  | (a, b) :: rest => decide (lo ≤ a) && (b != 0) && Memory.wfFrom (a + 1) rest

/-- The canonical form of a memory. -/
def Memory.wf (m : Memory) : Bool := Memory.wfFrom 0 m

/-- Every listed offset is below `n`. -/
def Memory.within (n : Nat) (m : Memory) : Bool := m.all (fun c => decide (c.1 < n))

/-- The input: the bytes of INBUF at offsets 0 to LEN-1 (10_state.md rule R23). -/
def State.input (s : State) : List Byte := (List.range s.len.toNat).map s.inbuf.byteAt

/-- The little-endian sum of rule R61: byte `i` of the `n` bytes at `off`, shifted left by 8*i, as `w` bits. -/
def assemble (w : Nat) (m : Memory) (off : Nat) : Nat → BitVec w
  | 0 => 0
  | i + 1 => assemble w m off i + ((m.byteAt (off + i)).setWidth w <<< (8 * i))

/-- `MemRead(off, n)` of 20_memory.md rule R61, for `w = 8*n`. The bound is computed in `Nat`. -/
def memRead (w : Nat) (s : State) (off n : Nat) : Except Trap (BitVec w) :=
  if off + n > s.len.toNat then .error (.oobRead off n) else .ok (assemble w s.inbuf off n)

/-! ### Register updates -/

/-- Write RES0. -/
def State.setRes0 (s : State) (v : Word) : State := { s with res0 := v }

/-- Write a 32-bit result to RES0, zero-extended (10_state.md rule R25). -/
def State.setRes0Half (s : State) (v : Half) : State := s.setRes0 (v.setWidth 64)

/-- Write RES1. -/
def State.setRes1 (s : State) (v : Word) : State := { s with res1 := v }

/-- Write the two lanes of a pair: lo to RES0, hi to RES1 (10_state.md rule R25). -/
def State.setResPair (s : State) (p : Pair) : State := (s.setRes0 p.lo).setRes1 p.hi

/-- Write the block-state registers. -/
def State.setBlk (s : State) (b : BlockRegs) : State := { s with blk := b }

/-- The block registers with a chunk's results: X, Y, Z, V, W and S. -/
def BlockRegs.setChunk (b : BlockRegs) (x y z : Word) (v w : Pair) (s : Word) : BlockRegs :=
  { b with x := x, y := y, z := z, v := v, w := w, s := s }

/-- The block registers with the span of a sequence: END and LAST64. -/
def BlockRegs.setSpan (b : BlockRegs) (endOff last64 : Word) : BlockRegs := { b with endOff := endOff, last64 := last64 }

/-- The block registers with MUL. -/
def BlockRegs.setMul (b : BlockRegs) (m : Word) : BlockRegs := { b with mul := m }

/-- Write SEQ. -/
def State.setSeq (s : State) (q : Seq) : State := { s with seq := q }

/-- Replace the input: INBUF and LEN. -/
def State.setInput (s : State) (m : Memory) (n : Word) : State := { s with inbuf := m, len := n }

/-! ### Faults -/

/-- CODE of a cause (60_exceptions.md rule R261). -/
def Trap.code : Trap → BitVec 8
  | .illegalCmd _ => 1
  | .sequence _ => 2
  | .bandLen _ => 3
  | .oobRead _ _ => 4

/-- WIDTH of a cause: the access width for OOB_READ, 0 otherwise (rule R261). -/
def Trap.width : Trap → BitVec 8
  | .illegalCmd _ => 0
  | .sequence _ => 0
  | .bandLen _ => 0
  | .oobRead _ n => BitVec.ofNat 8 n

/-- FAULT_INFO of a cause (rule R261). -/
def Trap.info : Trap → Word
  | .illegalCmd w => w.setWidth 64
  | .sequence w => w.setWidth 64
  | .bandLen len => len
  | .oobRead off _ => BitVec.ofNat 64 off

/-- Taking a fault, `raise Fault(cause, info, width)` of rule R263: FAULT_CAUSE and FAULT_INFO are written and nothing else. -/
def State.raiseFault (s : State) (t : Trap) : State :=
  { s with faultCause := (t.width ++ t.code).setWidth 64, faultInfo := t.info }

/-- Leaving the halted state: RESET sets every register of the block to its reset value (rule R265, 70_reset_and_hazards.md
rule R300). The host's own fields are not the block's and stay: DESIGN CHOICE, safe: log entry 18. -/
def State.hostReset (s : State) : State := { State.reset with pending := s.pending, seen := s.seen }

/-- The end of a command (60_exceptions.md rule R262): its writes together, or, where a check failed, the fault alone. -/
def complete (s : State) (r : Except Trap State) : Host.Outcome State Fault Refusal :=
  match r with
  | .ok t => .next t
  | .error t => .next (s.raiseFault t)

end Sys2Proof.Machine
end

