-- ==== Sys2Proof/Machine/Operands.lean ====
section
/-! DEFINITION. The operand forms of 30_encoding.md rule R82: a command reads fixed operand registers, whole unless a slice is
shown, with nothing sign-extended, scaled or shifted on the way in. -/

namespace Sys2Proof.Machine

/-- OP0 as a byte offset: all 64 bits, as a `nat`. -/
def opOffset (s : State) : Nat := s.op0.toNat

/-- OP1[5:0], the shift of ROTR64; OP1[63:6] is ignored. -/
def opShift64 (s : State) : Nat := (s.op1.extractLsb' 0 6).toNat

/-- OP1[4:0], the shift of ROTR32; OP1[63:5] is ignored. -/
def opShift32 (s : State) : Nat := (s.op1.extractLsb' 0 5).toNat

/-- OP0[31:0]; OP0[63:32] is ignored. -/
def opLow0 (s : State) : Half := s.op0.extractLsb' 0 32

/-- OP1[31:0]; OP1[63:32] is ignored. -/
def opLow1 (s : State) : Half := s.op1.extractLsb' 0 32

end Sys2Proof.Machine
end

