-- ==== Sys2Proof/Machine/ByteReaders.lean ====
section
/-! DEFINITION. The byte readers and their commands (40_byte_readers.md). -/

namespace Sys2Proof.Machine

/-- `fetch8(off)` of rule R100. -/
def fetch8 (s : State) (off : Nat) : Except Trap Byte := memRead 8 s off 1

/-- `fetch32(off)` of rule R101, byte_reader_4. -/
def fetch32 (s : State) (off : Nat) : Except Trap Half := memRead 32 s off 4

/-- `fetch64(off)` of rule R102, byte_reader_8. -/
def fetch64 (s : State) (off : Nat) : Except Trap Word := memRead 64 s off 8

/-- FETCH8, rule R103. -/
def execFetch8 (s : State) : Host.Outcome State Fault Refusal :=
  complete s do
    let b ← fetch8 s (opOffset s)
    .ok (s.setRes0 (b.setWidth 64))

/-- FETCH32, rule R104. -/
def execFetch32 (s : State) : Host.Outcome State Fault Refusal :=
  complete s do
    let h ← fetch32 s (opOffset s)
    .ok (s.setRes0Half h)

/-- FETCH64, rule R105. -/
def execFetch64 (s : State) : Host.Outcome State Fault Refusal :=
  complete s do
    let w ← fetch64 s (opOffset s)
    .ok (s.setRes0 w)

end Sys2Proof.Machine
end

