-- ==== Sys2Proof/Machine/Mixers.lean ====
section
/-! DEFINITION. The mixers and their commands (41_mixers.md). -/

namespace Sys2Proof.Machine

/-- `rotr64(v, s)` of rule R120, for `s` at most 63: no shift by 64 is ever made. -/
def rotr64 (v : Word) (s : Nat) : Word := if s = 0 then v else (v >>> s) ||| (v <<< (64 - s))

/-- `rotr32(v, s)` of rule R121, for `s` at most 31. -/
def rotr32 (v : Half) (s : Nat) : Half := if s = 0 then v else (v >>> s) ||| (v <<< (32 - s))

/-- `shift_mix(v)` of rule R122. -/
def shiftMix (v : Word) : Word := v ^^^ (v >>> 47)

/-- `combine16(u, v, mul)` of rule R123. -/
def combine16 (u v mul : Word) : Word :=
  let a := shiftMix ((u ^^^ v) * mul)
  let b := shiftMix ((v ^^^ a) * mul)
  b * mul

/-- `weak_mix(w, x, y, z, a, b)` of rule R124 (90_conflicts.md C6). -/
def weakMix (w x y z a b : Word) : Pair :=
  let a1 := a + w
  let b1 := rotr64 (b + a1 + z) 21
  let c := a1
  let a2 := a1 + x
  let a3 := a2 + y
  let b2 := b1 + rotr64 a3 44
  { lo := a3 + z, hi := b2 + c }

/-- `weak_mix_mem(off, a, b)` of rule R125: the four reads in the order shown. -/
def weakMixMem (s : State) (off : Nat) (a b : Word) : Except Trap Pair := do
  let w ← fetch64 s off
  let x ← fetch64 s (off + 8)
  let y ← fetch64 s (off + 16)
  let z ← fetch64 s (off + 24)
  .ok (weakMix w x y z a b)

/-- ROTR64, rule R130. -/
def execRotr64 (s : State) : Host.Outcome State Fault Refusal :=
  complete s (.ok (s.setRes0 (rotr64 s.op0 (opShift64 s))))

/-- ROTR32, rule R131. -/
def execRotr32 (s : State) : Host.Outcome State Fault Refusal :=
  complete s (.ok (s.setRes0Half (rotr32 (opLow0 s) (opShift32 s))))

/-- SHIFTMIX, rule R132. -/
def execShiftmix (s : State) : Host.Outcome State Fault Refusal :=
  complete s (.ok (s.setRes0 (shiftMix s.op0)))

/-- COMBINE16, rule R133. -/
def execCombine16 (s : State) : Host.Outcome State Fault Refusal :=
  complete s (.ok (s.setRes0 (combine16 s.op0 s.op1 s.op2)))

/-- WEAKMIX, rule R134. -/
def execWeakmix (s : State) : Host.Outcome State Fault Refusal :=
  complete s (.ok (s.setResPair (weakMix s.op0 s.op1 s.op2 s.op3 s.op4 s.op5)))

/-- WEAKMIX_MEM, rule R135. -/
def execWeakmixMem (s : State) : Host.Outcome State Fault Refusal :=
  complete s do
    let p ← weakMixMem s (opOffset s) s.op1 s.op2
    .ok (s.setResPair p)

end Sys2Proof.Machine
end

