-- ==== Sys2Proof/Machine/LengthBands.lean ====
section
/-! DEFINITION. The length bands A, B and C and their commands (42_length_bands.md). -/

namespace Sys2Proof.Machine

/-- The four bands of rule R150. -/
inductive Band where
  | a
  | b
  | c
  | d
  deriving DecidableEq, Repr

/-- `band(n)` of rule R151. -/
def band (n : Nat) : Band :=
  if n ≤ 32 then (if n ≤ 16 then .a else .b) else if n ≤ 64 then .c else .d

/-- The multiplier `K2 + 2 * zext_64(LEN)` of rule R157. -/
def bandMul (s : State) : Word := k2 + 2 * s.len

/-- Band A with 8 to 16 bytes (rule R152). -/
def hash8to16 (s : State) : Except Trap Word := do
  let n := s.len.toNat
  let mul := bandMul s
  let a := (← fetch64 s 0) + k2
  let b ← fetch64 s (n - 8)
  let c := rotr64 b 37 * mul + a
  let d := (rotr64 a 25 + b) * mul
  .ok (combine16 c d mul)

/-- Band A with 4 to 7 bytes (rule R152). -/
def hash4to7 (s : State) : Except Trap Word := do
  let n := s.len.toNat
  let mul := bandMul s
  let a : Word := (← fetch32 s 0).setWidth 64
  let b : Word := (← fetch32 s (n - 4)).setWidth 64
  .ok (combine16 (s.len + (a <<< 3)) b mul)

/-- Band A with 1 to 3 bytes (rules R152 and R154): the first, the middle and the last byte. -/
def hash1to3 (s : State) : Except Trap Word := do
  let n := s.len.toNat
  let a ← fetch8 s 0
  let b ← fetch8 s (n / 2)
  let c ← fetch8 s (n - 1)
  let y : Half := a.setWidth 32 + (b.setWidth 32 <<< 8)
  let z : Half := s.len.setWidth 32 + (c.setWidth 32 <<< 2)
  .ok (shiftMix ((y.setWidth 64 * k2) ^^^ (z.setWidth 64 * k0)) * k2)

/-- `hash_0_16()` of rule R152: the four sub-cases in its order. -/
def hash0to16 (s : State) : Except Trap Word :=
  let n := s.len.toNat
  if n ≥ 8 then hash8to16 s
  else if n ≥ 4 then hash4to7 s
  else if n > 0 then hash1to3 s
  else .ok k2

/-- `hash_17_32()` of rule R155. -/
def hash17to32 (s : State) : Except Trap Word := do
  let n := s.len.toNat
  let mul := bandMul s
  let a := (← fetch64 s 0) * k1
  let b ← fetch64 s 8
  let c := (← fetch64 s (n - 8)) * mul
  let d := (← fetch64 s (n - 16)) * k2
  .ok (combine16 (rotr64 (a + b) 43 + rotr64 c 30 + d) (a + rotr64 (b + k2) 18 + c) mul)

/-- `hash_33_64()` of rule R156. -/
def hash33to64 (s : State) : Except Trap Word := do
  let n := s.len.toNat
  let mul := bandMul s
  let a := (← fetch64 s 0) * k2
  let b ← fetch64 s 8
  let c := (← fetch64 s (n - 8)) * mul
  let d := (← fetch64 s (n - 16)) * k2
  let y := rotr64 (a + b) 43 + rotr64 c 30 + d
  let z := combine16 y (a + rotr64 (b + k2) 18 + c) mul
  let e := (← fetch64 s 16) * mul
  let f ← fetch64 s 24
  let g := (y + (← fetch64 s (n - 32))) * mul
  let h := (z + (← fetch64 s (n - 24))) * mul
  .ok (combine16 (rotr64 (e + f) 43 + rotr64 g 30 + h) (e + rotr64 (f + a) 18 + g) mul)

/-- HASH_0_16, rule R160. -/
def execHash0to16 (s : State) : Host.Outcome State Fault Refusal :=
  complete s (if s.len.toNat > 16 then .error (.bandLen s.len) else (hash0to16 s).map s.setRes0)

/-- HASH_17_32, rule R161. -/
def execHash17to32 (s : State) : Host.Outcome State Fault Refusal :=
  complete s
    (if s.len.toNat < 17 ∨ s.len.toNat > 32 then .error (.bandLen s.len) else (hash17to32 s).map s.setRes0)

/-- HASH_33_64, rule R162. -/
def execHash33to64 (s : State) : Host.Outcome State Fault Refusal :=
  complete s
    (if s.len.toNat < 33 ∨ s.len.toNat > 64 then .error (.bandLen s.len) else (hash33to64 s).map s.setRes0)

end Sys2Proof.Machine
end

