-- ==== Sys2Proof/Machine/BlockLoop.lean ====
section
/-! DEFINITION. The block loop, the final pass and their commands (43_block_loop.md). -/

namespace Sys2Proof.Machine

/-- END: `((LEN - 1) div 64) * 64` (10_state.md rule R29). -/
def loopEnd (n : Nat) : Nat := ((n - 1) / 64) * 64

/-- LAST64: `((LEN - 1) / 64) * 64 + ((LEN - 1) mod 64) - 63` (10_state.md rule R30). -/
def finalWindow (n : Nat) : Nat := ((n - 1) / 64) * 64 + (n - 1) % 64 - 63

/-- `block_init()` of rule R180. MUL is not among its results and keeps its value. -/
def blockInit (s : State) : Except Trap BlockRegs := do
  let n := s.len.toNat
  let x0 := seed
  let y := seed * k1 + 113
  let z := shiftMix (y * k2 + 113) * k2
  let x := x0 * k2 + (← fetch64 s 0)
  .ok ((s.blk.setChunk x y z ⟨0, 0⟩ ⟨0, 0⟩ 0).setSpan (BitVec.ofNat 64 (loopEnd n)) (BitVec.ofNat 64 (finalWindow n)))

/-- `block_step(st)` of rule R181 (90_conflicts.md C1 and C2), reading old and new values as rule R182 says. The offsets of the
reads are `nat` (20_memory.md rule R61): DEDUCED, log entry 14. END, LAST64 and MUL keep their values. -/
def blockStep (s : State) (b : BlockRegs) : Except Trap BlockRegs := do
  let off := b.s.toNat
  let x1 := rotr64 (b.x + b.y + b.v.lo + (← fetch64 s (off + 8))) 37 * k1
  let y1 := rotr64 (b.y + b.v.hi + (← fetch64 s (off + 48))) 42 * k1
  let x2 := x1 ^^^ b.w.hi
  let y2 := y1 + b.v.lo + (← fetch64 s (off + 40))
  let z1 := rotr64 (b.z + b.w.lo) 33 * k1
  let v' ← weakMixMem s off (b.v.hi * k1) (x2 + b.w.lo)
  let q ← fetch64 s (off + 16)
  let w' ← weakMixMem s (off + 32) (z1 + b.w.hi) (y2 + q)
  .ok (b.setChunk z1 y2 x2 v' w' (b.s + 64))

/-- `finalize(st)` of rule R183 (90_conflicts.md C3 and C7): the registers it leaves and the hash. -/
def finalize (s : State) (b : BlockRegs) : Except Trap (BlockRegs × Word) := do
  let n := s.len.toNat
  let mul := k1 + ((b.z &&& 0xff) <<< 1)
  let off := b.last64.toNat
  let wlo1 := b.w.lo + BitVec.ofNat 64 ((n - 1) % 64)
  let vlo1 := b.v.lo + wlo1
  let wlo2 := wlo1 + vlo1
  let x1 := rotr64 (b.x + b.y + vlo1 + (← fetch64 s (off + 8))) 37 * mul
  let y1 := rotr64 (b.y + b.v.hi + (← fetch64 s (off + 48))) 42 * mul
  let x2 := x1 ^^^ (b.w.hi * 9)
  let y2 := y1 + vlo1 * 9 + (← fetch64 s (off + 40))
  let z1 := rotr64 (b.z + wlo2) 33 * mul
  let v' ← weakMixMem s off (b.v.hi * mul) (x2 + wlo2)
  let q ← fetch64 s (off + 16)
  let w' ← weakMixMem s (off + 32) (z1 + b.w.hi) (y2 + q)
  let x3 := z1
  let z3 := x2
  let h := combine16 (combine16 v'.lo w'.lo mul + shiftMix y2 * k0 + z3) (combine16 v'.hi w'.hi mul + x3) mul
  .ok ((b.setChunk x3 y2 z3 v' w' b.last64).setMul mul, h)

/-- BLOCK_INIT, rule R184: accepted in every SEQ state. -/
def execBlockInit (s : State) : Host.Outcome State Fault Refusal :=
  complete s
    (if s.len.toNat < 65 then .error (.bandLen s.len) else (blockInit s).map fun b => (s.setBlk b).setSeq .loop)

/-- SEQ after a step that leaves S at `chunk` (rule R185): TAIL where the loop is over. -/
def seqAfterStep (chunk endOff : Word) : Seq := if chunk = endOff then .tail else .loop

/-- BLOCK_STEP, rule R185. -/
def execBlockStep (s : State) : Host.Outcome State Fault Refusal :=
  complete s
    (if s.seq ≠ .loop then .error (.sequence 0x00000031)
     else (blockStep s s.blk).map fun b => (s.setBlk b).setSeq (seqAfterStep b.s s.blk.endOff))

/-- FINALIZE, rule R187. -/
def execFinalize (s : State) : Host.Outcome State Fault Refusal :=
  complete s
    (if s.seq ≠ .tail then .error (.sequence 0x00000032)
     else (finalize s s.blk).map fun r => ((s.setBlk r.1).setRes0 r.2).setSeq .idle)

end Sys2Proof.Machine
end

