-- ==== Sys2Proof/Machine/Fold32.lean ====
section
/-! DEFINITION. The 32-bit fold and its commands (44_fold32.md). -/

namespace Sys2Proof.Machine

/-- `mur(a, h)` of rule R220. -/
def mur (a h : Half) : Half :=
  let a1 := a * c1
  let a2 := rotr32 a1 17
  let a3 := a2 * c2
  let h1 := h ^^^ a3
  let h2 := rotr32 h1 19
  h2 * 5 + 0xe6546b64

/-- `mix64to32(x)` of rule R221 under a given MIX_ORDER. -/
def mix64to32With (order : MixOrder) (x : Word) : Half :=
  let hi : Half := x.extractLsb' 32 32
  let lo : Half := x.extractLsb' 0 32
  match order with
  | .hiLo => mur hi lo
  | .loHi => mur lo hi

/-- `mix64to32(x)` of rule R221 under this machine's MIX_ORDER. -/
def mix64to32 (x : Word) : Half := mix64to32With Config.mixOrder x

/-- MUR, rule R230. -/
def execMur (s : State) : Host.Outcome State Fault Refusal :=
  complete s (.ok (s.setRes0Half (mur (opLow0 s) (opLow1 s))))

/-- MIX64TO32, rule R231. -/
def execMix64to32 (s : State) : Host.Outcome State Fault Refusal :=
  complete s (.ok (s.setRes0Half (mix64to32 s.op0)))

end Sys2Proof.Machine
end

