-- ==== Sys2Proof/Machine/EntryPoints.lean ====
section
/-! DEFINITION. The public entry points hash64 and hash32 and their commands (45_entry_points.md). -/

namespace Sys2Proof.Machine

/-- `repeat st = block_step(st) until st.S == st.END` of rule R240. The fuel only makes the recursion structural: from
`block_init` the loop leaves by its own test after `(LEN - 1) div 64` steps (43_block_loop.md rule R186). DEDUCED: log entry 10. -/
def blockLoop (s : State) : Nat → BlockRegs → Except Trap BlockRegs
  | 0, b => .ok b
  | fuel + 1, b => do
    let b' ← blockStep s b
    if b'.s = b'.endOff then .ok b' else blockLoop s fuel b'

/-- Band D of `hash64()` (rules R240 and R242): the block registers it leaves and the hash. -/
def hashLong (s : State) : Except Trap (BlockRegs × Word) := do
  let b ← blockInit s
  let b' ← blockLoop s ((s.len.toNat - 1) / 64) b
  finalize s b'

/-- `hash64()` of rule R240, with the block registers HASH64 leaves (rule R242: bands A, B and C keep them). -/
def hash64 (s : State) : Except Trap (BlockRegs × Word) :=
  match band s.len.toNat with
  | .a => (hash0to16 s).map fun h => (s.blk, h)
  | .b => (hash17to32 s).map fun h => (s.blk, h)
  | .c => (hash33to64 s).map fun h => (s.blk, h)
  | .d => hashLong s

/-- HASH64, rule R242. -/
def execHash64 (s : State) : Host.Outcome State Fault Refusal :=
  complete s ((hash64 s).map fun r => ((s.setBlk r.1).setRes0 r.2).setSeq .idle)

/-- HASH32, rules R243 and R244: RES1 takes the 64-bit hash, RES0 its fold. -/
def execHash32 (s : State) : Host.Outcome State Fault Refusal :=
  complete s
    ((hash64 s).map fun r => (((s.setBlk r.1).setRes1 r.2).setRes0Half (mix64to32 r.2)).setSeq .idle)

end Sys2Proof.Machine
end

