-- ==== Sys2Proof/Machine/Dispatch.lean ====
section
/-! DEFINITION. One arm per command of 30_encoding.md rule R83, each a direct call of its meaning. -/

namespace Sys2Proof.Machine

/-- The command `i` run on `s`, from check 3 of 60_exceptions.md rule R266 on. -/
def exec (i : Instr) (s : State) : Host.Outcome State Fault Refusal :=
  match i with
  | .fetch8 => Sys2Proof.Machine.execFetch8 s
  | .fetch32 => Sys2Proof.Machine.execFetch32 s
  | .fetch64 => Sys2Proof.Machine.execFetch64 s
  | .rotr64 => Sys2Proof.Machine.execRotr64 s
  | .rotr32 => Sys2Proof.Machine.execRotr32 s
  | .shiftmix => Sys2Proof.Machine.execShiftmix s
  | .combine16 => Sys2Proof.Machine.execCombine16 s
  | .weakmix => Sys2Proof.Machine.execWeakmix s
  | .weakmixMem => Sys2Proof.Machine.execWeakmixMem s
  | .hash0to16 => Sys2Proof.Machine.execHash0to16 s
  | .hash17to32 => Sys2Proof.Machine.execHash17to32 s
  | .hash33to64 => Sys2Proof.Machine.execHash33to64 s
  | .blockInit => Sys2Proof.Machine.execBlockInit s
  | .blockStep => Sys2Proof.Machine.execBlockStep s
  | .finalize => Sys2Proof.Machine.execFinalize s
  | .mur => Sys2Proof.Machine.execMur s
  | .mix64to32 => Sys2Proof.Machine.execMix64to32 s
  | .hash64 => Sys2Proof.Machine.execHash64 s
  | .hash32 => Sys2Proof.Machine.execHash32 s

end Sys2Proof.Machine
end

