-- ==== Sys2Proof/Machine/Registers.lean ====
section
/-! DEFINITION. The register map the host sees (10_state.md rule R37) and access to it (rule R38). -/

namespace Sys2Proof.Machine

/-- The registers of 10_state.md rule R37 by name. -/
inductive Reg where
  | cmd | status | faultCause | faultInfo | len
  | op0 | op1 | op2 | op3 | op4 | op5
  | res0 | res1
  | x | y | z | vLo | vHi | wLo | wHi | s | endOff | last64 | mul
  | k0 | k1 | k2 | c1 | c2 | seed
  deriving DecidableEq, Repr

/-- The number of a register (rule R37). -/
def regNumber : Reg → BitVec 8
  | .cmd => 0x00 | .status => 0x01 | .faultCause => 0x02 | .faultInfo => 0x03 | .len => 0x04
  | .op0 => 0x08 | .op1 => 0x09 | .op2 => 0x0A | .op3 => 0x0B | .op4 => 0x0C | .op5 => 0x0D
  | .res0 => 0x10 | .res1 => 0x11
  | .x => 0x20 | .y => 0x21 | .z => 0x22 | .vLo => 0x23 | .vHi => 0x24 | .wLo => 0x25 | .wHi => 0x26
  | .s => 0x27 | .endOff => 0x28 | .last64 => 0x29 | .mul => 0x2A
  | .k0 => 0x30 | .k1 => 0x31 | .k2 => 0x32 | .c1 => 0x33 | .c2 => 0x34 | .seed => 0x35

/-- The register with a number; none where the number is unassigned (rule R37). -/
def regOfNumber (num : BitVec 8) : Option Reg :=
  match num with
  | 0x00#8 => some .cmd
  | 0x01#8 => some .status
  | 0x02#8 => some .faultCause
  | 0x03#8 => some .faultInfo
  | 0x04#8 => some .len
  | 0x08#8 => some .op0
  | 0x09#8 => some .op1
  | 0x0A#8 => some .op2
  | 0x0B#8 => some .op3
  | 0x0C#8 => some .op4
  | 0x0D#8 => some .op5
  | 0x10#8 => some .res0
  | 0x11#8 => some .res1
  | 0x20#8 => some .x
  | 0x21#8 => some .y
  | 0x22#8 => some .z
  | 0x23#8 => some .vLo
  | 0x24#8 => some .vHi
  | 0x25#8 => some .wLo
  | 0x26#8 => some .wHi
  | 0x27#8 => some .s
  | 0x28#8 => some .endOff
  | 0x29#8 => some .last64
  | 0x2A#8 => some .mul
  | 0x30#8 => some .k0
  | 0x31#8 => some .k1
  | 0x32#8 => some .k2
  | 0x33#8 => some .c1
  | 0x34#8 => some .c2
  | 0x35#8 => some .seed
  | _ => none

/-- What a host READ of a register returns (rules R35 to R38): CMD reads 0, STATUS is computed, the 32-bit constants are
zero-extended. -/
def readReg (st : State) : Reg → Word
  | .cmd => 0
  | .status => st.status
  | .faultCause => st.faultCause
  | .faultInfo => st.faultInfo
  | .len => st.len
  | .op0 => st.op0
  | .op1 => st.op1
  | .op2 => st.op2
  | .op3 => st.op3
  | .op4 => st.op4
  | .op5 => st.op5
  | .res0 => st.res0
  | .res1 => st.res1
  | .x => st.blk.x
  | .y => st.blk.y
  | .z => st.blk.z
  | .vLo => st.blk.v.lo
  | .vHi => st.blk.v.hi
  | .wLo => st.blk.w.lo
  | .wHi => st.blk.w.hi
  | .s => st.blk.s
  | .endOff => st.blk.endOff
  | .last64 => st.blk.last64
  | .mul => st.blk.mul
  | .k0 => Sys2Proof.Machine.k0
  | .k1 => Sys2Proof.Machine.k1
  | .k2 => Sys2Proof.Machine.k2
  | .c1 => Sys2Proof.Machine.c1.setWidth 64
  | .c2 => Sys2Proof.Machine.c2.setWidth 64
  | .seed => Sys2Proof.Machine.seed

/-- A host READ by number: an unassigned number returns 0 (rule R38). -/
def readNumber (st : State) (num : BitVec 8) : Word :=
  match regOfNumber num with
  | some r => readReg st r
  | none => 0

/-- What a host WRITE of a register other than CMD does: OP0 to OP5 take the value, every other is unchanged (rule R38). -/
def writeReg (st : State) (r : Reg) (v : Word) : State :=
  match r with
  | .op0 => { st with op0 := v }
  | .op1 => { st with op1 := v }
  | .op2 => { st with op2 := v }
  | .op3 => { st with op3 := v }
  | .op4 => { st with op4 := v }
  | .op5 => { st with op5 := v }
  | _ => st

end Sys2Proof.Machine
end

