-- ==== Sys2Proof/Machine/HostActions.lean ====
section
/-! DEFINITION. The host's five actions (10_state.md rules R38 and R43 to R45, 70_reset_and_hazards.md rule R300). -/

namespace Sys2Proof.Machine

/-- ISSUE(w), in the order of 60_exceptions.md rule R266: while halted the word is ignored, undecoded (rule R264); an illegal
word faults (rule R267); otherwise the command runs, and its own checks are the rest. -/
def issue (w : BitVec 32) (s : State) : Host.Outcome State Fault Refusal :=
  if s.halted then .next s
  else
    match decode w with
    | .error _ => .next (s.raiseFault (.illegalCmd w))
    | .ok i => exec i s

/-- HOST_LOAD(b) of 10_state.md rule R44 on a block of capacity `maxLen`: INBUF, LEN and SEQ are written, no other register. More
than `maxLen` bytes is refused (60_exceptions.md rule R271, log entry 7), and so are 2^64 or more (log entry 4). -/
def hostLoad (maxLen : Nat) (b : List Byte) (s : State) : Host.Outcome State Fault Refusal :=
  if b.length > maxLen then .refused (.loadOverCapacity b.length)
  else if b.length ≥ 2 ^ 64 then .refused (.loadOverLen b.length)
  else .next ((s.setInput (Memory.ofBytes b) (BitVec.ofNat 64 b.length)).setSeq .idle)

/-- WRITE of a register by number (10_state.md rule R38): a write to CMD is ISSUE of its low 32 bits, a write to an unassigned
number is ignored. -/
def hostWrite (num : BitVec 8) (v : Word) (s : State) : Host.Outcome State Fault Refusal :=
  match regOfNumber num with
  | some .cmd => issue (v.extractLsb' 0 32) s
  | some r => .next (writeReg s r v)
  | none => .next s

/-- READ of a register by number (10_state.md rule R38): no side effect in the block. The value goes to the host (log entry 13). -/
def hostRead (num : BitVec 8) (s : State) : State := { s with seen := s.seen ++ [readNumber s num] }

/-- One host action (10_state.md rule R43). -/
def perform (a : HostAction) (s : State) : Host.Outcome State Fault Refusal :=
  match a with
  | .reset => .next s.hostReset
  | .load b => hostLoad Config.maxLen b s
  | .write num v => hostWrite num v s
  | .issue w => issue w s
  | .read num => .next (hostRead num s)

/-- The block takes the host's next action; with none, it never steps on its own (10_state.md rule R20) and the state holds its
values (60_exceptions.md rule R281). DEDUCED: log entries 1 and 2. -/
def takeAction (s : State) : Host.Outcome State Fault Refusal :=
  match s.pending with
  | [] => .next s
  | a :: rest => perform a { s with pending := rest }

/-- `s` with ISSUE of the word `w` as the host's next action, before those that were due. -/
def State.withIssue (s : State) (w : BitVec 32) : State := { s with pending := .issue w :: s.pending }

end Sys2Proof.Machine
end

