-- ==== Sys2Proof/Machine/Step.lean ====
section
/-! DEFINITION. One step of the machine, and how the host places an instruction for it. -/

namespace Sys2Proof.Machine

/-- One step: the next of the host's actions (10_state.md rules R20 and R43). -/
def step (s : State) : Host.Outcome State Fault Refusal := takeAction s

/-- `s` with a table row's instruction as the host's next action: the block has no instruction memory, a command arrives as a
word the host issues (10_state.md rule R39, 20_memory.md rule R74). -/
def State.withFetchWord (s : State) (nbits w : Nat) : State := s.withIssue (tableWord nbits w)

end Sys2Proof.Machine
end

