-- ==== Sys2Proof/Machine/Assembler.lean ====
section
/-! DEFINITION. The assembler syntax of 30_encoding.md rule R87 and the pseudo-instructions of rule R88: one line of a host
program to the host actions it stands for. Points of the syntax the rules leave open: log entry 17. -/

namespace Sys2Proof.Machine

/-- The lower-case mnemonic of a command (rule R87). -/
def mnemonicText : Instr → String
  | .fetch8 => "fetch8"
  | .fetch32 => "fetch32"
  | .fetch64 => "fetch64"
  | .rotr64 => "rotr64"
  | .rotr32 => "rotr32"
  | .shiftmix => "shiftmix"
  | .combine16 => "combine16"
  | .weakmix => "weakmix"
  | .weakmixMem => "weakmix_mem"
  | .hash0to16 => "hash_0_16"
  | .hash17to32 => "hash_17_32"
  | .hash33to64 => "hash_33_64"
  | .blockInit => "block_init"
  | .blockStep => "block_step"
  | .finalize => "finalize"
  | .mur => "mur"
  | .mix64to32 => "mix64to32"
  | .hash64 => "hash64"
  | .hash32 => "hash32"

/-- The commands in the order of rule R83. -/
def allInstrs : List Instr :=
  [.fetch8, .fetch32, .fetch64, .rotr64, .rotr32, .shiftmix, .combine16, .weakmix, .weakmixMem, .hash0to16, .hash17to32,
    .hash33to64, .blockInit, .blockStep, .finalize, .mur, .mix64to32, .hash64, .hash32]

/-- The name of a register (10_state.md rule R37). -/
def regText : Reg → String
  | .cmd => "CMD" | .status => "STATUS" | .faultCause => "FAULT_CAUSE" | .faultInfo => "FAULT_INFO" | .len => "LEN"
  | .op0 => "OP0" | .op1 => "OP1" | .op2 => "OP2" | .op3 => "OP3" | .op4 => "OP4" | .op5 => "OP5"
  | .res0 => "RES0" | .res1 => "RES1"
  | .x => "X" | .y => "Y" | .z => "Z" | .vLo => "V_LO" | .vHi => "V_HI" | .wLo => "W_LO" | .wHi => "W_HI"
  | .s => "S" | .endOff => "END" | .last64 => "LAST64" | .mul => "MUL"
  | .k0 => "K0" | .k1 => "K1" | .k2 => "K2" | .c1 => "C1" | .c2 => "C2" | .seed => "SEED"

/-- The registers in the order of 10_state.md rule R37. -/
def allRegs : List Reg :=
  [.cmd, .status, .faultCause, .faultInfo, .len, .op0, .op1, .op2, .op3, .op4, .op5, .res0, .res1, .x, .y, .z, .vLo, .vHi,
    .wLo, .wHi, .s, .endOff, .last64, .mul, .k0, .k1, .k2, .c1, .c2, .seed]

/-- The operand registers in order (rule R88). -/
def operandRegs : List Reg := [.op0, .op1, .op2, .op3, .op4, .op5]

/-! ### Expansions -/

/-- ISSUE of a command's word (rule R87). -/
def issueOf (i : Instr) : HostAction := .issue (encode i)

/-- WRITE to a register by name (rule R87). -/
def writeOf (r : Reg) (v : Word) : HostAction := .write (regNumber r) v

/-- `mnemonic e0, ..., ek` (rule R88): at most six operands, written to OP0 to OPk, then the command. -/
def expandCommand (i : Instr) (ops : List Word) : Option (List HostAction) :=
  if ops.length ≤ 6 then some ((operandRegs.zip ops).map (fun p => writeOf p.1 p.2) ++ [issueOf i]) else none

/-- `h64 <bytes>` (rule R88). -/
def expandH64 (b : List Byte) : List HostAction := [.load b, issueOf .hash64]

/-- `h32 <bytes>` (rule R88). -/
def expandH32 (b : List Byte) : List HostAction := [.load b, issueOf .hash32]

/-- `P(n)`: the bytes `i & 0xff` for i = 0 to n-1 (rule R87). -/
def rampBytes (n : Nat) : List Byte := (List.range n).map (BitVec.ofNat 8)

/-- `Z(n)` and `F(n)`: n bytes of one value (rule R87). -/
def sameBytes (n : Nat) (b : Byte) : List Byte := List.replicate n b

/-! ### Reading a line -/

/-- A character that separates words. -/
def isBlank (c : Char) : Bool := c == ' ' || c == '\t'

/-- The characters without those blanks that stand first or last. -/
def trimBlanks (cs : List Char) : List Char := ((cs.dropWhile isBlank).reverse.dropWhile isBlank).reverse

/-- The characters before a comment: `;` starts one, but not inside a quoted text (rule R87). -/
def beforeComment (quoted : Bool) : List Char → List Char
  | [] => []
  | c :: cs =>
    if c == '"' then c :: beforeComment (!quoted) cs
    else if c == ';' && !quoted then []
    else c :: beforeComment quoted cs

/-- The parts between commas. -/
def splitCommas : List Char → List (List Char)
  | [] => [[]]
  | c :: cs =>
    match splitCommas cs with
    | [] => [[c]]
    | part :: parts => if c == ',' then [] :: part :: parts else (c :: part) :: parts

/-- The value of a digit in base `base`. -/
def digitValue (base : Nat) (c : Char) : Option Nat :=
  let n := c.toNat
  let v := if 48 ≤ n ∧ n ≤ 57 then n - 48 else if 97 ≤ n ∧ n ≤ 102 then n - 87 else if 65 ≤ n ∧ n ≤ 70 then n - 55 else base
  if v < base then some v else none

/-- The value of digits in base `base` after `acc`. -/
def digitsFrom (base acc : Nat) : List Char → Option Nat
  | [] => some acc
  | c :: cs =>
    match digitValue base c with
    | some v => digitsFrom base (base * acc + v) cs
    | none => none

/-- An immediate: decimal or `0x` hexadecimal (rule R87). -/
def readNumeral (cs : List Char) : Option Nat :=
  match cs with
  | [] => none
  | ['0', 'x'] => none
  | '0' :: 'x' :: ds => digitsFrom 16 0 ds
  | ds => digitsFrom 10 0 ds

/-- An immediate of at most `w` bits. -/
def readImm (w : Nat) (cs : List Char) : Option (BitVec w) :=
  match readNumeral (trimBlanks cs) with
  | some n => if n < 2 ^ w then some (BitVec.ofNat w n) else none
  | none => none

/-- The bytes of pairs of hexadecimal digits. -/
def hexBytes : List Char → Option (List Byte)
  | [] => some []
  | [_] => none
  | a :: b :: cs => do
    let x ← digitValue 16 a
    let y ← digitValue 16 b
    let rest ← hexBytes cs
    some (BitVec.ofNat 8 (16 * x + y) :: rest)

/-- The argument of `load` (rule R87): an ASCII text with no terminator, `hex:` digits, or `P(n)`, `Z(n)`, `F(n)`. -/
def readBytes (cs : List Char) : Option (List Byte) :=
  match cs with
  | '"' :: rest =>
    match rest.reverse with
    | '"' :: text =>
      if text.all (fun c => c != '"' && decide (c.toNat < 128)) then
        some (text.reverse.map (fun c => BitVec.ofNat 8 c.toNat))
      else none
    | _ => none
  | 'h' :: 'e' :: 'x' :: ':' :: rest => hexBytes rest
  | kind :: '(' :: rest =>
    match rest.reverse with
    | ')' :: ds => do
      let n ← readNumeral ds.reverse
      match kind with
      | 'P' => some (rampBytes n)
      | 'Z' => some (sameBytes n 0x00)
      | 'F' => some (sameBytes n 0xff)
      | _ => none
    | _ => none
  | _ => none

/-- The register with a name. -/
def readReg? (cs : List Char) : Option Reg := allRegs.find? (fun r => (regText r).toList == cs)

/-- The command with a mnemonic. -/
def readMnemonic (cs : List Char) : Option Instr := allInstrs.find? (fun i => (mnemonicText i).toList == cs)

/-- `wr NAME, imm` (rule R87). -/
def readWrite (args : List Char) : Option (List HostAction) :=
  match splitCommas args with
  | [name, imm] => do
    let r ← readReg? (trimBlanks name)
    let v ← readImm 64 imm
    some [writeOf r v]
  | _ => none

/-- A mnemonic and its operands, none or a list of immediates (rules R87 and R88). -/
def readCommand (head args : List Char) : Option (List HostAction) := do
  let i ← readMnemonic head
  let ops ← if args.isEmpty then some [] else (splitCommas args).mapM (readImm 64)
  expandCommand i ops

/-- The host actions of one line (rules R87 and R88). A line that is blank or only a comment is no action (`some []`), and a line
that is neither that nor of the syntax assembles to `none`; rule R87 says neither. DESIGN CHOICE, safe: log entry 17. -/
def assembleLine (line : String) : Option (List HostAction) :=
  let cs := trimBlanks (beforeComment false line.toList)
  let head := cs.takeWhile (fun c => !isBlank c)
  let args := trimBlanks (cs.dropWhile (fun c => !isBlank c))
  if head = [] then some []
  else if head = "nop".toList then (if args = [] then some [] else none)
  else if head = "reset".toList then (if args = [] then some [.reset] else none)
  else if head = "load".toList then (readBytes args).map (fun b => [.load b])
  else if head = "wr".toList then readWrite args
  else if head = "rd".toList then (readReg? args).map (fun r => [.read (regNumber r)])
  else if head = ".cmd".toList then (readImm 32 args).map (fun w => [.issue w])
  else if head = "h64".toList then (readBytes args).map expandH64
  else if head = "h32".toList then (readBytes args).map expandH32
  else readCommand head args

/-- The host actions of a program, one action per line (rule R87). -/
def assembleProgram (lines : List String) : Option (List HostAction) := (lines.mapM assembleLine).map List.flatten

end Sys2Proof.Machine
end

