-- ==== Sys2Proof/Safety.lean ====
section
/-! DEFINITION. What a safe state is: the invariants the spec gives every reachable state. -/

namespace Sys2Proof.Machine

/-- The block-state invariant of 10_state.md rule R42. -/
def State.blockInv (s : State) : Prop :=
  (s.seq = .loop →
    65 ≤ s.len.toNat ∧ s.blk.endOff.toNat = ((s.len.toNat - 1) / 64) * 64 ∧ s.blk.last64.toNat = s.len.toNat - 64 ∧
      s.blk.s.toNat % 64 = 0 ∧ s.blk.s.toNat < s.blk.endOff.toNat) ∧
  (s.seq = .tail →
    65 ≤ s.len.toNat ∧ s.blk.endOff.toNat = ((s.len.toNat - 1) / 64) * 64 ∧ s.blk.last64.toNat = s.len.toNat - 64 ∧
      s.blk.s = s.blk.endOff)

/-- INBUF holds its canonical form, and lists no offset of LEN or more (10_state.md rule R23). -/
def State.inputInv (s : State) : Prop := s.inbuf.wf = true ∧ s.inbuf.within s.len.toNat = true

/-- LEN is at most MAX_LEN (10_state.md rule R22). -/
def State.capacityInv (s : State) : Prop := s.len.toNat ≤ Config.maxLen

/-- The values FAULT_CAUSE ever holds (10_state.md rule R33, 60_exceptions.md rule R261). -/
def faultCauses : List Word := [0, 1, 2, 3, 0x104, 0x404, 0x804]

/-- FAULT_CAUSE holds one of them, and FAULT_INFO is 0 while there is no fault (60_exceptions.md rule R261). -/
def State.faultInv (s : State) : Prop := s.faultCause ∈ faultCauses ∧ (s.faultCause = 0 → s.faultInfo = 0)

end Sys2Proof.Machine
end

