-- ==== Sys2Proof/Reference.lean ====
section
/-! DEFINITION. The spec's functions once more, as closed forms over the bytes of the input: no bounds checks, no faults, no
state, the rotation taken from the library and the block loop as a counted iteration. Statements compare the commands with
them. -/

namespace Sys2Proof.Reference

open Sys2Proof.Machine

/-! ### Encoding -/

/-- The opcode map of 30_encoding.md rule R83. -/
def opcodeMap : List (BitVec 8 × Instr) :=
  [(0x01, .fetch8), (0x02, .fetch32), (0x03, .fetch64),
   (0x10, .rotr64), (0x11, .rotr32), (0x12, .shiftmix), (0x13, .combine16), (0x14, .weakmix), (0x15, .weakmixMem),
   (0x20, .hash0to16), (0x21, .hash17to32), (0x22, .hash33to64),
   (0x30, .blockInit), (0x31, .blockStep), (0x32, .finalize),
   (0x40, .mur), (0x41, .mix64to32), (0x50, .hash64), (0x51, .hash32)]

/-! ### Bytes -/

/-- The little-endian value of bytes, the first the least significant (20_memory.md rule R61). -/
def leValue : List Byte → Nat
  | [] => 0
  | b :: rest => b.toNat + 256 * leValue rest

/-- The byte at `off`. -/
def u8 (b : List Byte) (off : Nat) : Byte := b.getD off 0

/-- The 4-byte word at `off`. -/
def u32 (b : List Byte) (off : Nat) : Half := BitVec.ofNat 32 (leValue ((b.drop off).take 4))

/-- The 8-byte word at `off`. -/
def u64 (b : List Byte) (off : Nat) : Word := BitVec.ofNat 64 (leValue ((b.drop off).take 8))

/-! ### Mixers -/

/-- The closed form of `weak_mix` (41_mixers.md rules R124 and R126): no rotation in the lo lane. -/
def weakMix (w x y z a b : Word) : Pair :=
  { lo := a + w + x + y + z,
    hi := (b + (a + w) + z).rotateRight 21 + (a + w + x + y).rotateRight 44 + (a + w) }

/-- `weak_mix` over the 32 bytes at `off` (rule R125). -/
def weakMixAt (b : List Byte) (off : Nat) (s t : Word) : Pair :=
  weakMix (u64 b off) (u64 b (off + 8)) (u64 b (off + 16)) (u64 b (off + 24)) s t

/-! ### Bands A, B and C -/

/-- `K2 + 2*n` (42_length_bands.md rule R157). -/
def lengthMul (n : Nat) : Word := k2 + BitVec.ofNat 64 (2 * n)

/-- `hash_0_16` (rule R152). -/
def hash0to16 (b : List Byte) : Word :=
  let n := b.length
  if n = 0 then k2
  else if n ≤ 3 then
    let y : Half := BitVec.ofNat 32 ((u8 b 0).toNat + 256 * (u8 b (n / 2)).toNat)
    let z : Half := BitVec.ofNat 32 (n + 4 * (u8 b (n - 1)).toNat)
    shiftMix ((y.setWidth 64 * k2) ^^^ (z.setWidth 64 * k0)) * k2
  else if n ≤ 7 then
    combine16 (BitVec.ofNat 64 (n + 8 * (u32 b 0).toNat)) ((u32 b (n - 4)).setWidth 64) (lengthMul n)
  else
    let a := u64 b 0 + k2
    let t := u64 b (n - 8)
    combine16 (t.rotateRight 37 * lengthMul n + a) ((a.rotateRight 25 + t) * lengthMul n) (lengthMul n)

/-- `hash_17_32` (rule R155). -/
def hash17to32 (b : List Byte) : Word :=
  let n := b.length
  let mul := lengthMul n
  let a := u64 b 0 * k1
  let t := u64 b 8
  let c := u64 b (n - 8) * mul
  combine16 ((a + t).rotateRight 43 + c.rotateRight 30 + u64 b (n - 16) * k2) (a + (t + k2).rotateRight 18 + c) mul

/-- `hash_33_64` (rule R156). -/
def hash33to64 (b : List Byte) : Word :=
  let n := b.length
  let mul := lengthMul n
  let a := u64 b 0 * k2
  let t := u64 b 8
  let c := u64 b (n - 8) * mul
  let y := (a + t).rotateRight 43 + c.rotateRight 30 + u64 b (n - 16) * k2
  let z := combine16 y (a + (t + k2).rotateRight 18 + c) mul
  let e := u64 b 16 * mul
  let f := u64 b 24
  let g := (y + u64 b (n - 32)) * mul
  let h := (z + u64 b (n - 24)) * mul
  combine16 ((e + f).rotateRight 43 + g.rotateRight 30 + h) (e + (f + a).rotateRight 18 + g) mul

/-! ### Band D -/

/-- The registers `block_init` leaves, MUL kept from `r` (43_block_loop.md rule R180, with the constants it evaluates). -/
def start (b : List Byte) (r : BlockRegs) : BlockRegs :=
  { x := 0x01529cba0ca458ff + u64 b 0, y := 0x226bb95b4e64b6d4, z := 0x134a747f856d0526, v := ⟨0, 0⟩, w := ⟨0, 0⟩, s := 0,
    endOff := BitVec.ofNat 64 ((b.length - 1) / 64 * 64), last64 := BitVec.ofNat 64 (b.length - 64), mul := r.mul }

/-- The two rotations, the swap and the two weak mixes that a loop step (rule R181) and the final pass (rule R183) share: the
window at `off`, the multiplier `m`, the lanes `vlo` and `wlo` as adjusted, and the factor `k` on W_HI and `vlo`. S becomes `s`. -/
def round (b : List Byte) (r : BlockRegs) (off : Nat) (m vlo wlo k s : Word) : BlockRegs :=
  let x := (r.x + r.y + vlo + u64 b (off + 8)).rotateRight 37 * m ^^^ r.w.hi * k
  let y := (r.y + r.v.hi + u64 b (off + 48)).rotateRight 42 * m + vlo * k + u64 b (off + 40)
  let z := (r.z + wlo).rotateRight 33 * m
  r.setChunk z y x (weakMixAt b off (r.v.hi * m) (x + wlo)) (weakMixAt b (off + 32) (z + r.w.hi) (y + u64 b (off + 16))) s

/-- `block_step` (rule R181): the multiplier is K1, nothing is adjusted and the factor is 1. -/
def step (b : List Byte) (r : BlockRegs) : BlockRegs :=
  round b r r.s.toNat k1 r.v.lo r.w.lo 1 (r.s + 64)

/-- The registers after `count` loop steps from `block_init`. -/
def afterSteps (b : List Byte) (r : BlockRegs) : Nat → BlockRegs
  | 0 => start b r
  | count + 1 => step b (afterSteps b r count)

/-- The multiplier of the final pass, `K1 + 2*(z & 0xff)` (rule R183). -/
def lastMul (r : BlockRegs) : Word := k1 + 2 * (r.z &&& 0xff)

/-- The registers `finalize` leaves (rule R183, with the pre-adjustment of 90_conflicts.md C3). -/
def last (b : List Byte) (r : BlockRegs) : BlockRegs :=
  let c := BitVec.ofNat 64 ((b.length - 1) % 64)
  let vlo := r.v.lo + (r.w.lo + c)
  (round b r r.last64.toNat (lastMul r) vlo (r.w.lo + c + vlo) 9 r.last64).setMul (lastMul r)

/-- The hash `finalize` makes of the registers it leaves (rule R183). -/
def lastHash (q : BlockRegs) : Word :=
  combine16 (combine16 q.v.lo q.w.lo q.mul + shiftMix q.y * k0 + q.z) (combine16 q.v.hi q.w.hi q.mul + q.x) q.mul

/-- The registers the whole of band D leaves: `block_init`, (n - 1) div 64 steps, `finalize` (45_entry_points.md rule R242). -/
def longRegs (b : List Byte) (r : BlockRegs) : BlockRegs := last b (afterSteps b r ((b.length - 1) / 64))

/-! ### Entry points -/

/-- A start for `hash64` alone: its value depends on no register (45_entry_points.md rule R247). -/
def noRegs : BlockRegs := BlockRegs.reset

/-- `hash64(bytes)` (45_entry_points.md rule R240). -/
def hash64 (b : List Byte) : Word :=
  if b.length ≤ 16 then hash0to16 b
  else if b.length ≤ 32 then hash17to32 b
  else if b.length ≤ 64 then hash33to64 b
  else lastHash (longRegs b noRegs)

/-- `mur(a, h)` (44_fold32.md rule R220) with its literals. -/
def mur (a h : Half) : Half :=
  ((h ^^^ (a * 0xcc9e2d51).rotateRight 17 * 0x1b873593).rotateRight 19) * 5 + 0xe6546b64

/-- `mix64to32(x)` (rule R221). -/
def mix64to32 (order : MixOrder) (x : Word) : Half :=
  if order = .hiLo then mur (x.extractLsb' 32 32) (x.extractLsb' 0 32)
  else mur (x.extractLsb' 0 32) (x.extractLsb' 32 32)

/-! ### What a statement says of two states -/

/-- What no command writes: the input (each byte of INBUF, and LEN), the operand registers, and the host's side of the run. -/
def keepsInputs (s t : State) : Prop :=
  (∀ off, t.inbuf.byteAt off = s.inbuf.byteAt off) ∧ t.len = s.len ∧
    t.op0 = s.op0 ∧ t.op1 = s.op1 ∧ t.op2 = s.op2 ∧ t.op3 = s.op3 ∧ t.op4 = s.op4 ∧ t.op5 = s.op5 ∧
    t.pending = s.pending ∧ t.seen = s.seen

/-- The fault registers are those of `s`. -/
def keepsFault (s t : State) : Prop := t.faultCause = s.faultCause ∧ t.faultInfo = s.faultInfo

/-- `t` is `s` but for the two fault registers. -/
def faultOnly (s t : State) : Prop := t = { s with faultCause := t.faultCause, faultInfo := t.faultInfo }

/-- The commands of a list run one after the other, each on the state the one before it left. -/
def execAll : List Instr → State → Host.Outcome State Fault Refusal
  | [], s => .next s
  | i :: rest, s =>
    match exec i s with
    | .next t => execAll rest t
    | .fault r => .fault r
    | .refused r => .refused r

/-- The two states hold the same input: LEN, and the bytes below it. -/
def sameInput (s t : State) : Prop :=
  s.len = t.len ∧ ∀ off, off < s.len.toNat → s.inbuf.byteAt off = t.inbuf.byteAt off

end Sys2Proof.Reference
end

