-- ==== Sys2Proof/Certificates/Slice0/Obligations.lean ====
section
/-! DEFINITION. The statements for the provers. A command runs only on a block that is not halted (60_exceptions.md rule R264),
so a statement about what `exec` answers has that hypothesis. -/

open Sys2Proof Sys2Proof.Machine

/-! ### Encoding -/

/-- 30_encoding.md rule R84: the decoder accepts a word exactly when RSV is 0 and OPC is in the map of rule R83, and then
gives that row's command. -/
def Obligations.DecodeFollowsTheOpcodeMap : Prop :=
  ∀ (w : BitVec 32) (i : Instr),
    decode w = .ok i ↔ w.extractLsb' 8 24 = 0 ∧ (w.extractLsb' 0 8, i) ∈ Reference.opcodeMap

/-- Decode and encode agree in both directions: no two words decode to one command (30_encoding.md rules R80 to R84). -/
def Obligations.DecodeInvertsEncode : Prop :=
  (∀ i : Instr, decode (encode i) = .ok i) ∧ ∀ (w : BitVec 32) (i : Instr), decode w = .ok i → encode i = w

/-- Words of every family written out from the opcode map decode to their commands, and words the spec calls illegal to none
(30_encoding.md rules R83 and R85). A sanity statement. -/
def Obligations.SampleWordsDecode : Prop :=
  decode 0b00000000000000000000000000000011#32 = .ok .fetch64 ∧
  decode 0b00000000000000000000000000010101#32 = .ok .weakmixMem ∧
  decode 0b00000000000000000000000000100001#32 = .ok .hash17to32 ∧
  decode 0b00000000000000000000000000110010#32 = .ok .finalize ∧
  decode 0b00000000000000000000000001000001#32 = .ok .mix64to32 ∧
  decode 0b00000000000000000000000001010001#32 = .ok .hash32 ∧
  (decode 0#32).toOption = none ∧ (decode 0x00000004#32).toOption = none ∧ (decode 0x01000001#32).toOption = none

/-- 60_exceptions.md rule R267: an illegal word issued to a block that is not halted faults with ILLEGAL_CMD in every SEQ state
and for every LEN, and nothing but the fault registers changes. -/
def Obligations.IllegalWordRaisesIllegalCmd : Prop :=
  ∀ (w : BitVec 32) (s : State), s.halted = false →
    (w.extractLsb' 8 24 ≠ 0 ∨ w.extractLsb' 0 8 ∉ Reference.opcodeMap.map Prod.fst) →
    issue w s = .next { s with faultCause := 1, faultInfo := w.setWidth 64 }

/-- The mnemonic of a command assembles to ISSUE of its word, and with a list of at most six operands, whatever their values, to
the WRITE of each to OP0 to OP5 in order and then that ISSUE (30_encoding.md rules R87 and R88); a line's operand texts are read
as that list, and the example of rule R88 is a whole line. -/
def Obligations.AssemblerExpandsMnemonics : Prop :=
  (∀ i : Instr, assembleLine (mnemonicText i) = some [.issue (encode i)]) ∧
  (∀ (i : Instr) (ops : List Word), ops.length ≤ 6 →
    expandCommand i ops =
      some (ops.mapIdx (fun k v => .write (BitVec.ofNat 8 (0x08 + k)) v) ++ [.issue (encode i)])) ∧
  (∀ (i : Instr) (args : List Char) (ops : List Word), args ≠ [] → (splitCommas args).mapM (readImm 64) = some ops →
    readCommand (mnemonicText i).toList args = expandCommand i ops) ∧
  assembleLine "rotr64 0x0123456789abcdef, 8" =
    some [.write 0x08 0x0123456789abcdef, .write 0x09 8, .issue 0x00000010]

/-! ### Steps and host actions -/

/-- A step performs the host's next action on the state with that action taken off the list; with no action left the state holds
its values (60_exceptions.md rule R281; the datapath never steps on its own, 10_state.md rule R20). The list in State is the
model's choice: log entries 1 and 2. -/
def Obligations.StepPerformsTheNextAction : Prop :=
  ∀ s : State,
    (s.pending = [] → step s = .next s) ∧
    ∀ (a : HostAction) (rest : List HostAction), s.pending = a :: rest → step s = perform a { s with pending := rest }

/-- A step on an ISSUE: while halted nothing runs; an illegal word faults; a word that decodes runs its command on the state
with that action taken off the host's list. A WRITE to CMD is the ISSUE of its low 32 bits, and the word `withFetchWord`
places is what the next step runs (10_state.md rules R38 and R45, 60_exceptions.md rule R266). The host's list in State is the
model's choice: log entry 1. -/
def Obligations.StepRunsTheDecodedCommand : Prop :=
  ∀ (s : State) (rest : List HostAction),
    (∀ w : BitVec 32, s.pending = .issue w :: rest →
      (s.halted = true → step s = .next { s with pending := rest }) ∧
      (s.halted = false → ∀ e, decode w = .error e →
        step s = .next (({ s with pending := rest } : State).raiseFault (.illegalCmd w))) ∧
      (s.halted = false → ∀ i, decode w = .ok i → i.wellFormed = true →
        step s = exec i { s with pending := rest })) ∧
    (∀ v : Word, s.pending = .write 0x00 v :: rest →
      step s = step { s with pending := .issue (v.extractLsb' 0 32) :: rest }) ∧
    (s.halted = false → ∀ i : Instr, step (s.withFetchWord 32 (encode i).toNat) = exec i s)

/-- 70_reset_and_hazards.md rule R300: RESET, in any state, halted or not, sets every register to its reset value, and the
constants read as before. -/
def Obligations.ResetSetsEveryRegister : Prop :=
  ∀ s : State, ∃ t, perform .reset s = .next t ∧
    t.inbuf = [] ∧ t.len = 0 ∧
    t.op0 = 0 ∧ t.op1 = 0 ∧ t.op2 = 0 ∧ t.op3 = 0 ∧ t.op4 = 0 ∧ t.op5 = 0 ∧
    t.res0 = 0 ∧ t.res1 = 0 ∧
    t.blk.x = 0 ∧ t.blk.y = 0 ∧ t.blk.z = 0 ∧ t.blk.v = ⟨0, 0⟩ ∧ t.blk.w = ⟨0, 0⟩ ∧
    t.blk.s = 0 ∧ t.blk.endOff = 0 ∧ t.blk.last64 = 0 ∧ t.blk.mul = 0 ∧
    t.seq = .idle ∧ t.faultCause = 0 ∧ t.faultInfo = 0 ∧ t.halted = false ∧
    ∀ r ∈ ([.k0, .k1, .k2, .c1, .c2, .seed] : List Reg), readReg t r = readReg s r

/-- The state at power-on as the host reads it: every register below the constants reads 0, the block is not halted and holds no
input byte (70_reset_and_hazards.md rules R301 and R302). -/
def Obligations.PowerOnReadsZero : Prop :=
  (∀ num : BitVec 8, num.toNat < 0x30 → readNumber State.reset num = 0) ∧
    State.reset.halted = false ∧ State.reset.input = []

/-- The register map: what the host reads at every number (10_state.md rules R35 to R38). CMD and the unassigned numbers read 0,
0x01 reads STATUS (whose bits `StatusShowsHaltedAndSeq` gives), the constants their fixed values. -/
def Obligations.RegisterMapReads : Prop :=
  ∀ s : State,
    [0x00, 0x01, 0x02, 0x03, 0x04].map (readNumber s) = [0, s.status, s.faultCause, s.faultInfo, s.len] ∧
    [0x08, 0x09, 0x0A, 0x0B, 0x0C, 0x0D].map (readNumber s) = [s.op0, s.op1, s.op2, s.op3, s.op4, s.op5] ∧
    [0x10, 0x11].map (readNumber s) = [s.res0, s.res1] ∧
    [0x20, 0x21, 0x22, 0x23, 0x24, 0x25, 0x26].map (readNumber s) =
      [s.blk.x, s.blk.y, s.blk.z, s.blk.v.lo, s.blk.v.hi, s.blk.w.lo, s.blk.w.hi] ∧
    [0x27, 0x28, 0x29, 0x2A].map (readNumber s) = [s.blk.s, s.blk.endOff, s.blk.last64, s.blk.mul] ∧
    [0x30, 0x31, 0x32, 0x33, 0x34, 0x35].map (readNumber s) =
      [0xc3a5c85c97cb3127, 0xb492b66fbe98f273, 0x9ae16a3b2f90404f, 0xcc9e2d51, 0x1b873593, 81] ∧
    ∀ num : BitVec 8, num ∉ ([0x00, 0x01, 0x02, 0x03, 0x04, 0x08, 0x09, 0x0A, 0x0B, 0x0C, 0x0D, 0x10, 0x11, 0x20, 0x21, 0x22,
      0x23, 0x24, 0x25, 0x26, 0x27, 0x28, 0x29, 0x2A, 0x30, 0x31, 0x32, 0x33, 0x34, 0x35] : List (BitVec 8)) →
      readNumber s num = 0

/-- 10_state.md rule R35: STATUS[0] is 1 exactly when CODE is not 0, STATUS[2:1] is SEQ, STATUS[63:3] reads 0, the host cannot write
it, and STATUS reads 0 after reset. -/
def Obligations.StatusShowsHaltedAndSeq : Prop :=
  (∀ s : State,
    (((readNumber s 0x01).getLsbD 0 = true) ↔ s.faultCause.extractLsb' 0 8 ≠ 0) ∧
    (readNumber s 0x01).extractLsb' 1 2 = (match s.seq with | .idle => 0 | .loop => 1 | .tail => 2) ∧
    (readNumber s 0x01).extractLsb' 3 61 = 0 ∧
    ∀ v : Word, perform (.write 0x01 v) s = .next s) ∧
  readNumber State.reset 0x01 = 0

/-- READ and WRITE, halted or not (10_state.md rule R38). A READ hands the value of its number to the host (in `seen`, the model's
field: log entry 13) and changes nothing of the block; a WRITE to OP0 to OP5 sets that register; a WRITE to CMD is ISSUE of the
low 32 bits; any other WRITE changes nothing. -/
def Obligations.HostReadsAndWrites : Prop :=
  ∀ (s : State) (num : BitVec 8) (v : Word),
    perform (.read num) s = .next { s with seen := s.seen ++ [readNumber s num] } ∧
    (num = 0x00 ∨ num ∉ allRegs.map regNumber → readNumber s num = 0) ∧
    perform (.write num v) s =
      (if num = 0x00 then issue (v.extractLsb' 0 32) s
      else if num = 0x08 then .next { s with op0 := v }
      else if num = 0x09 then .next { s with op1 := v }
      else if num = 0x0A then .next { s with op2 := v }
      else if num = 0x0B then .next { s with op3 := v }
      else if num = 0x0C then .next { s with op4 := v }
      else if num = 0x0D then .next { s with op5 := v }
      else .next s)

/-- HOST_LOAD (10_state.md rule R44). On a block of any capacity, in any state, halted or not, at most MAX_LEN bytes (and fewer
than 2^64, which LEN can count) become the input; LEN is their number, SEQ is IDLE, nothing else changes. The host action is
`hostLoad` at the block's own MAX_LEN, in every state. -/
def Obligations.HostLoadReplacesTheInput : Prop :=
  (∀ (b : List Byte) (s : State), perform (.load b) s = hostLoad Config.maxLen b s) ∧
  ∀ (maxLen : Nat) (b : List Byte) (s : State), b.length ≤ maxLen → b.length < 2 ^ 64 →
    ∃ m : Memory,
      hostLoad maxLen b s = .next { s with inbuf := m, len := BitVec.ofNat 64 b.length, seq := .idle } ∧
      ∀ i, (h : i < b.length) → m.byteAt i = b[i]

/-- A HOST_LOAD that is no action of the model is refused and takes no fault: more bytes than MAX_LEN (60_exceptions.md rule R271),
or, by the model's choice, 2^64 bytes or more, which LEN cannot count (log entries 4 and 7). -/
def Obligations.LoadsThatDoNotFitAreRefused : Prop :=
  ∀ (maxLen : Nat) (b : List Byte) (s : State),
    (maxLen < b.length → hostLoad maxLen b s = .refused (.loadOverCapacity b.length)) ∧
    (b.length ≤ maxLen → 2 ^ 64 ≤ b.length → hostLoad maxLen b s = .refused (.loadOverLen b.length))

/-- HOST_LOAD in the middle of a block sequence abandons it: the block registers keep their values, and the next BLOCK_STEP or
FINALIZE faults with SEQUENCE (70_reset_and_hazards.md rule R306). -/
def Obligations.HostLoadAbandonsTheSequence : Prop :=
  ∀ (maxLen : Nat) (b : List Byte) (s t : State), hostLoad maxLen b s = .next t →
    t.blk = s.blk ∧ t.seq = .idle ∧ t.faultCause = s.faultCause ∧ t.faultInfo = s.faultInfo ∧
    (t.halted = false →
      issue 0x31 t = .next { t with faultCause := 2, faultInfo := 0x31 } ∧
      issue 0x32 t = .next { t with faultCause := 2, faultInfo := 0x32 })

/-! ### Reading INBUF -/

/-- 20_memory.md rule R61: MemRead of width 1, 4 or 8 at any offset, aligned or not, fails exactly when `off + n > LEN` in `nat`;
otherwise byte `i` of the result, from the least significant, is the byte at `off + i`. -/
def Obligations.MemReadIsLittleEndianAndBounded : Prop :=
  ∀ (s : State) (off n : Nat), n = 1 ∨ n = 4 ∨ n = 8 →
    (s.len.toNat < off + n → memRead (8 * n) s off n = .error (.oobRead off n)) ∧
    (off + n ≤ s.len.toNat → ∃ v : BitVec (8 * n), memRead (8 * n) s off n = .ok v ∧
      ∀ i, i < n → v.extractLsb' (8 * i) 8 = s.inbuf.byteAt (off + i))

/-- Mixed-width reads see one byte sequence (the derived rule R63 of 20_memory.md): the halves of an 8-byte read are the two
4-byte reads, and each byte of it is the 1-byte read. -/
def Obligations.MixedWidthReadsAgree : Prop :=
  ∀ (s : State) (off : Nat) (v : Word), fetch64 s off = .ok v →
    fetch32 s off = .ok (v.extractLsb' 0 32) ∧ fetch32 s (off + 4) = .ok (v.extractLsb' 32 32) ∧
    ∀ i, i < 8 → fetch8 s (off + i) = .ok (v.extractLsb' (8 * i) 8)

/-- 40_byte_readers.md rule R103: FETCH8 completes when OP0 + 1 <= LEN, and otherwise takes OOB_READ with width 1. -/
def Obligations.Fetch8ReadsOneByte : Prop :=
  decode 0x00000001 = .ok .fetch8 ∧
  ∀ s : State, s.halted = false →
    (s.op0.toNat + 1 ≤ s.len.toNat →
      exec .fetch8 s = .next { s with res0 := (s.inbuf.byteAt s.op0.toNat).setWidth 64 }) ∧
    (s.len.toNat < s.op0.toNat + 1 → exec .fetch8 s = .next { s with faultCause := 0x104, faultInfo := s.op0 })

/-- 40_byte_readers.md rule R104: FETCH32 completes when OP0 + 4 <= LEN, and otherwise takes OOB_READ with width 4. -/
def Obligations.Fetch32ReadsFourBytes : Prop :=
  decode 0x00000002 = .ok .fetch32 ∧
  ∀ s : State, s.halted = false →
    (s.op0.toNat + 4 ≤ s.len.toNat → ∃ v : Word, exec .fetch32 s = .next { s with res0 := v } ∧
      (∀ i, i < 4 → v.extractLsb' (8 * i) 8 = s.inbuf.byteAt (s.op0.toNat + i)) ∧ v.extractLsb' 32 32 = 0) ∧
    (s.len.toNat < s.op0.toNat + 4 → exec .fetch32 s = .next { s with faultCause := 0x404, faultInfo := s.op0 })

/-- 40_byte_readers.md rule R105: FETCH64 completes when OP0 + 8 <= LEN, and otherwise takes OOB_READ with width 8. -/
def Obligations.Fetch64ReadsEightBytes : Prop :=
  decode 0x00000003 = .ok .fetch64 ∧
  ∀ s : State, s.halted = false →
    (s.op0.toNat + 8 ≤ s.len.toNat → ∃ v : Word, exec .fetch64 s = .next { s with res0 := v } ∧
      ∀ i, i < 8 → v.extractLsb' (8 * i) 8 = s.inbuf.byteAt (s.op0.toNat + i)) ∧
    (s.len.toNat < s.op0.toNat + 8 → exec .fetch64 s = .next { s with faultCause := 0x804, faultInfo := s.op0 })

/-! ### Mixers -/

/-- 41_mixers.md rule R120: at 0 the identity, and bit `i` of the result is bit `(i + s) mod 64` of the value. -/
def Obligations.Rotr64MovesEachBit : Prop :=
  ∀ (v : Word) (s : Nat), s ≤ 63 →
    rotr64 v s = (if s = 0 then v else (v >>> s) ||| (v <<< (64 - s))) ∧
    ∀ i, i < 64 → (rotr64 v s).getLsbD i = v.getLsbD ((i + s) % 64)

/-- 41_mixers.md rule R130: ROTR64 rotates OP0 right by OP1[5:0], so by OP1 modulo 64; it always completes. -/
def Obligations.Rotr64RotatesByTheLowSixBits : Prop :=
  decode 0x00000010 = .ok .rotr64 ∧
  ∀ s : State, s.halted = false →
    exec .rotr64 s = .next { s with res0 := s.op0.rotateRight (s.op1.toNat % 64) }

/-- 41_mixers.md rule R131: ROTR32 rotates OP0[31:0] right by OP1[4:0] and zero-extends; it always completes. -/
def Obligations.Rotr32RotatesByTheLowFiveBits : Prop :=
  decode 0x00000011 = .ok .rotr32 ∧
  ∀ s : State, s.halted = false →
    exec .rotr32 s = .next { s with res0 := (((s.op0.setWidth 32).rotateRight (s.op1.toNat % 32)).setWidth 64) }

/-- 41_mixers.md rules R122 and R132: SHIFTMIX. It always completes. -/
def Obligations.ShiftmixXorsTheHighBitsDown : Prop :=
  decode 0x00000012 = .ok .shiftmix ∧
  ∀ s : State, s.halted = false → exec .shiftmix s = .next { s with res0 := s.op0 ^^^ (s.op0 >>> 47) }

/-- 41_mixers.md rules R123 and R133: COMBINE16, with the products wrapping. It always completes. -/
def Obligations.Combine16IsThreeRounds : Prop :=
  decode 0x00000013 = .ok .combine16 ∧
  ∀ s : State, s.halted = false →
    let p := (s.op0 ^^^ s.op1) * s.op2
    let a := p ^^^ (p >>> 47)
    let q := (s.op1 ^^^ a) * s.op2
    let b := q ^^^ (q >>> 47)
    exec .combine16 s = .next { s with res0 := b * s.op2 }

/-- 41_mixers.md rule R134: WEAKMIX, by the closed form of its two lanes: the lo lane has no rotation. It always completes. -/
def Obligations.WeakmixGivesTwoLanes : Prop :=
  decode 0x00000014 = .ok .weakmix ∧
  ∀ s : State, s.halted = false →
    exec .weakmix s = .next { s with
      res0 := s.op4 + s.op0 + s.op1 + s.op2 + s.op3,
      res1 := (s.op5 + (s.op4 + s.op0) + s.op3).rotateRight 21 + (s.op4 + s.op0 + s.op1 + s.op2).rotateRight 44
        + (s.op4 + s.op0) }

/-- 41_mixers.md rule R135: WEAKMIX_MEM over the 32 bytes at OP0 completes when OP0 + 32 <= LEN; otherwise it takes OOB_READ at the
first of its four reads that fails, and writes neither result register. -/
def Obligations.WeakmixMemReadsAThirtyTwoByteSpan : Prop :=
  decode 0x00000015 = .ok .weakmixMem ∧
  ∀ s : State, s.halted = false →
    (s.op0.toNat + 32 ≤ s.len.toNat →
      exec .weakmixMem s = .next { s with
        res0 := (Reference.weakMixAt s.input s.op0.toNat s.op1 s.op2).lo,
        res1 := (Reference.weakMixAt s.input s.op0.toNat s.op1 s.op2).hi }) ∧
    ∀ k, k < 4 → s.len.toNat < s.op0.toNat + 8 * k + 8 →
      (∀ j, j < k → s.op0.toNat + 8 * j + 8 ≤ s.len.toNat) →
      exec .weakmixMem s = .next { s with faultCause := 0x804, faultInfo := BitVec.ofNat 64 (s.op0.toNat + 8 * k) }

/-- The laws of 41_mixers.md (derived there from rules R120 to R124, as rule R126): rotations undo each other, `shift_mix` is its own
inverse and keeps its top 17 bits, `combine16` with a zero multiplier or two zero words is 0, the lo lane of `weak_mix` is a sum. -/
def Obligations.MixerLaws : Prop :=
  (∀ (v : Word) (s : Nat), s ≤ 63 → rotr64 (rotr64 v s) ((64 - s) % 64) = v) ∧
  (∀ (v : Half) (s : Nat), s ≤ 31 → rotr32 (rotr32 v s) ((32 - s) % 32) = v) ∧
  (∀ v : Word, shiftMix (shiftMix v) = v ∧ (shiftMix v).extractLsb' 47 17 = v.extractLsb' 47 17) ∧
  (∀ u v : Word, combine16 u v 0 = 0) ∧ (∀ mul : Word, combine16 0 0 mul = 0) ∧
  weakMix 0 0 0 0 0 0 = ⟨0, 0⟩ ∧ ∀ w x y z a b : Word, (weakMix w x y z a b).lo = a + w + x + y + z

/-! ### Length bands -/

/-- 42_length_bands.md rule R160: HASH_0_16 completes for LEN <= 16 with band A's hash of the input, and otherwise takes
BAND_LEN. -/
def Obligations.Hash0to16HashesBandA : Prop :=
  decode 0x00000020 = .ok .hash0to16 ∧
  ∀ s : State, s.halted = false →
    (s.len.toNat ≤ 16 → exec .hash0to16 s = .next { s with res0 := Reference.hash0to16 s.input }) ∧
    (16 < s.len.toNat → exec .hash0to16 s = .next { s with faultCause := 3, faultInfo := s.len })

/-- 42_length_bands.md rule R161: HASH_17_32 completes for LEN 17 to 32, and otherwise takes BAND_LEN. -/
def Obligations.Hash17to32HashesBandB : Prop :=
  decode 0x00000021 = .ok .hash17to32 ∧
  ∀ s : State, s.halted = false →
    (17 ≤ s.len.toNat ∧ s.len.toNat ≤ 32 →
      exec .hash17to32 s = .next { s with res0 := Reference.hash17to32 s.input }) ∧
    (s.len.toNat < 17 ∨ 32 < s.len.toNat →
      exec .hash17to32 s = .next { s with faultCause := 3, faultInfo := s.len })

/-- 42_length_bands.md rule R162: HASH_33_64 completes for LEN 33 to 64, and otherwise takes BAND_LEN. -/
def Obligations.Hash33to64HashesBandC : Prop :=
  decode 0x00000022 = .ok .hash33to64 ∧
  ∀ s : State, s.halted = false →
    (33 ≤ s.len.toNat ∧ s.len.toNat ≤ 64 →
      exec .hash33to64 s = .next { s with res0 := Reference.hash33to64 s.input }) ∧
    (s.len.toNat < 33 ∨ 64 < s.len.toNat →
      exec .hash33to64 s = .next { s with faultCause := 3, faultInfo := s.len })

/-- 60_exceptions.md rule R269: BAND_LEN is what a band command or BLOCK_INIT gives exactly when LEN is outside its band, with LEN in
FAULT_INFO, WIDTH 0 and nothing else written; no other command gives it, and none of these four ever takes OOB_READ. -/
def Obligations.BandLenExactlyOutsideTheBand : Prop :=
  ∀ (i : Instr) (s t : State), s.halted = false → exec i s = .next t →
    (t.faultCause = 3 ↔
      (i = .hash0to16 ∧ 16 < s.len.toNat) ∨ (i = .hash17to32 ∧ (s.len.toNat < 17 ∨ 32 < s.len.toNat)) ∨
      (i = .hash33to64 ∧ (s.len.toNat < 33 ∨ 64 < s.len.toNat)) ∨ (i = .blockInit ∧ s.len.toNat < 65)) ∧
    (t.faultCause = 3 → t = { s with faultCause := 3, faultInfo := s.len }) ∧
    (i ∈ ([.hash0to16, .hash17to32, .hash33to64, .blockInit] : List Instr) → t.faultCause.extractLsb' 0 8 ≠ 4)

/-! ### Block loop -/

/-- 43_block_loop.md rule R184: BLOCK_INIT completes for LEN >= 65, in every SEQ state, and otherwise takes BAND_LEN. -/
def Obligations.BlockInitOpensASequence : Prop :=
  decode 0x00000030 = .ok .blockInit ∧
  ∀ s : State, s.halted = false →
    (65 ≤ s.len.toNat →
      exec .blockInit s = .next { s with blk := Reference.start s.input s.blk, seq := .loop }) ∧
    (s.len.toNat < 65 → exec .blockInit s = .next { s with faultCause := 3, faultInfo := s.len })

/-- 43_block_loop.md rule R185: BLOCK_STEP takes SEQUENCE unless SEQ is LOOP; in LOOP, in every state that meets the invariant of
10_state.md rule R42 (`StepKeepsTheBlockInvariant`), it completes. -/
def Obligations.BlockStepConsumesAChunk : Prop :=
  decode 0x00000031 = .ok .blockStep ∧
  ∀ s : State, s.halted = false →
    (s.seq = .loop → s.blockInv →
      exec .blockStep s = .next { s with
        blk := Reference.step s.input s.blk,
        seq := if s.blk.s + 64 = s.blk.endOff then .tail else .loop }) ∧
    (s.seq ≠ .loop → exec .blockStep s = .next { s with faultCause := 2, faultInfo := 0x31 })

/-- 43_block_loop.md rule R187: FINALIZE takes SEQUENCE unless SEQ is TAIL; in TAIL, in every state that meets the invariant of
10_state.md rule R42 (`StepKeepsTheBlockInvariant`), it completes. -/
def Obligations.FinalizeClosesTheSequence : Prop :=
  decode 0x00000032 = .ok .finalize ∧
  ∀ s : State, s.halted = false →
    (s.seq = .tail → s.blockInv →
      exec .finalize s = .next { s with
        blk := Reference.last s.input s.blk,
        res0 := Reference.lastHash (Reference.last s.input s.blk), seq := .idle }) ∧
    (s.seq ≠ .tail → exec .finalize s = .next { s with faultCause := 2, faultInfo := 0x32 })

/-- A sequence takes `(LEN - 1) div 64` BLOCK_STEPs (derived in 43_block_loop.md as rule R186): after fewer, SEQ is LOOP; after
that many, it is TAIL; after `k` of them S is 64*k, and END, LAST64, MUL, RES0 and RES1 are those after BLOCK_INIT. -/
def Obligations.BlockStepCount : Prop :=
  ∀ (s : State) (k : Nat), s.halted = false → 65 ≤ s.len.toNat → k ≤ (s.len.toNat - 1) / 64 →
    Reference.execAll (.blockInit :: List.replicate k .blockStep) s = .next { s with
      blk := Reference.afterSteps s.input s.blk k,
      seq := if k = (s.len.toNat - 1) / 64 then .tail else .loop } ∧
    (Reference.afterSteps s.input s.blk k).s.toNat = 64 * k ∧
    (Reference.afterSteps s.input s.blk k).endOff.toNat = (s.len.toNat - 1) / 64 * 64 ∧
    (Reference.afterSteps s.input s.blk k).last64.toNat = s.len.toNat - 64 ∧
    (Reference.afterSteps s.input s.blk k).mul = s.blk.mul

/-! ### Fold -/

/-- 44_fold32.md rules R220 and R230: MUR, every product and sum modulo 2^32. It always completes. -/
def Obligations.MurCombinesTwoHalves : Prop :=
  decode 0x00000040 = .ok .mur ∧
  ∀ s : State, s.halted = false →
    let a := s.op0.setWidth 32
    let h := s.op1.setWidth 32
    let a3 := (a * 0xcc9e2d51#32).rotateRight 17 * 0x1b873593#32
    let h2 := (h ^^^ a3).rotateRight 19
    exec .mur s = .next { s with res0 := (h2 * 5#32 + 0xe6546b64#32).setWidth 64 }

/-- 44_fold32.md rules R221 and R231: MIX64TO32 folds the halves of OP0 in the order of MIX_ORDER, whichever the block has. It
always completes. -/
def Obligations.Mix64to32FoldsTheHalves : Prop :=
  decode 0x00000041 = .ok .mix64to32 ∧
  ∀ s : State, s.halted = false →
    exec .mix64to32 s = .next { s with res0 := (match Config.mixOrder with
      | .hiLo => Reference.mur (s.op0.extractLsb' 32 32) (s.op0.extractLsb' 0 32)
      | .loHi => Reference.mur (s.op0.extractLsb' 0 32) (s.op0.extractLsb' 32 32)).setWidth 64 }

/-- The laws of 44_fold32.md (derived there from rules R220 and R221, as rule R222). -/
def Obligations.FoldLaws : Prop :=
  (∀ o, mix64to32With o 0 = 0xe6546b64) ∧
  (∀ h : Half, mur 0 h = h.rotateRight 19 * 5 + 0xe6546b64) ∧
  (∀ x : Word, x.extractLsb' 32 32 = x.extractLsb' 0 32 → mix64to32With .hiLo x = mix64to32With .loHi x) ∧
  ∀ x : Word, mix64to32With .loHi x = mix64to32With .hiLo (x.rotateRight 32)

/-! ### Entry points -/

/-- 45_entry_points.md rule R242: HASH64 completes on every input, in every SEQ state, with the hash of the input in RES0, SEQ at
IDLE, and for LEN > 64 the block registers as the sequence leaves them. -/
def Obligations.Hash64HashesTheWholeInput : Prop :=
  decode 0x00000050 = .ok .hash64 ∧
  ∀ s : State, s.halted = false →
    exec .hash64 s = .next { s with
      res0 := Reference.hash64 s.input, seq := .idle,
      blk := if s.len.toNat ≤ 64 then s.blk else Reference.longRegs s.input s.blk }

/-- 45_entry_points.md rule R244: HASH32 completes on every input, with the 64-bit hash in RES1 and its fold, zero-extended, in
RES0; every other register is as HASH64 leaves it. -/
def Obligations.Hash32FoldsTheWholeHash : Prop :=
  decode 0x00000051 = .ok .hash32 ∧
  ∀ s : State, s.halted = false →
    exec .hash32 s = .next { s with
      res0 := (Reference.mix64to32 Config.mixOrder (Reference.hash64 s.input)).setWidth 64,
      res1 := Reference.hash64 s.input, seq := .idle,
      blk := if s.len.toNat ≤ 64 then s.blk else Reference.longRegs s.input s.blk }

/-- The step commands and the composite command agree (derived in 45_entry_points.md as rule R246): BLOCK_INIT,
`(LEN - 1) div 64` BLOCK_STEPs and FINALIZE leave exactly the state HASH64 leaves. -/
def Obligations.BlockSequenceEqualsHash64 : Prop :=
  ∀ s : State, s.halted = false → 65 ≤ s.len.toNat →
    Reference.execAll (.blockInit :: (List.replicate ((s.len.toNat - 1) / 64) .blockStep ++ [.finalize])) s = exec .hash64 s

/-- The band commands agree with HASH64, and HASH32 with MIX64TO32 of HASH64's result (derived in 45_entry_points.md as rule
R246). -/
def Obligations.CommandsAgreeOnTheHash : Prop :=
  ∀ s t u : State, s.halted = false → exec .hash64 s = .next t →
    (s.len.toNat ≤ 16 → exec .hash0to16 s = .next { s with res0 := t.res0 }) ∧
    (17 ≤ s.len.toNat ∧ s.len.toNat ≤ 32 → exec .hash17to32 s = .next { s with res0 := t.res0 }) ∧
    (33 ≤ s.len.toNat ∧ s.len.toNat ≤ 64 → exec .hash33to64 s = .next { s with res0 := t.res0 }) ∧
    (exec .mix64to32 { t with op0 := t.res0 } = .next u → exec .hash32 s = .next { t with res0 := u.res0, res1 := t.res0 })

/-- A whole call (70_reset_and_hazards.md rules R303 and R304): HOST_LOAD of the bytes, then HASH64, then READ of RES0 gives `hash64(bytes)`,
and HASH32 gives the fold of it, whatever the registers held before. -/
def Obligations.LoadThenHashIsTheFunction : Prop :=
  ∀ (maxLen : Nat) (b : List Byte) (s : State), s.halted = false → b.length ≤ maxLen → b.length < 2 ^ 64 →
    ∃ t u v, hostLoad maxLen b s = .next t ∧ t.input = b ∧
      exec .hash64 t = .next u ∧ readNumber u 0x10 = Reference.hash64 b ∧
      exec .hash32 t = .next v ∧ readNumber v 0x11 = Reference.hash64 b ∧
      readNumber v 0x10 = (Reference.mix64to32 Config.mixOrder (Reference.hash64 b)).setWidth 64

/-- HASH64 and HASH32 depend on the input alone (derived in 45_entry_points.md as rule R247): two blocks with the same input,
whatever else they hold, end with the same result registers, SEQ and, for LEN > 64, block registers. -/
def Obligations.HashDependsOnTheInputAlone : Prop :=
  ∀ s t s' t' s'' t'' : State, Reference.sameInput s t → s.halted = false → t.halted = false →
    exec .hash64 s = .next s' → exec .hash64 t = .next t' → exec .hash32 s = .next s'' → exec .hash32 t = .next t'' →
    s'.res0 = t'.res0 ∧ s'.seq = t'.seq ∧ s''.res0 = t''.res0 ∧ s''.res1 = t''.res1 ∧
    (64 < s.len.toNat → s'.blk = t'.blk ∧ s''.blk = t''.blk)

/-! ### Faults -/

/-- 60_exceptions.md rule R263: taking a fault writes FAULT_CAUSE and FAULT_INFO as the table of rule R261 says, leaves every
other register, and halts the block. -/
def Obligations.FaultEntryWritesTheFaultRegisters : Prop :=
  ∀ s : State,
    (∀ w : BitVec 32, s.raiseFault (.illegalCmd w) = { s with faultCause := 1, faultInfo := w.setWidth 64 }) ∧
    (∀ w : BitVec 32, s.raiseFault (.sequence w) = { s with faultCause := 2, faultInfo := w.setWidth 64 }) ∧
    (∀ len : Word, s.raiseFault (.bandLen len) = { s with faultCause := 3, faultInfo := len }) ∧
    (∀ off n : Nat, n = 1 ∨ n = 4 ∨ n = 8 → s.raiseFault (.oobRead off n) =
      { s with faultCause := BitVec.ofNat 64 (256 * n + 4), faultInfo := BitVec.ofNat 64 off }) ∧
    ∀ c : Trap, (s.raiseFault c).halted = true

/-- 60_exceptions.md rule R264: the block is halted exactly when CODE is not 0; while halted an ISSUE changes nothing, a READ, a
WRITE of OP0 to OP5 and a HOST_LOAD still work and do not clear the fault; only RESET leaves the halted state. That a READ hands
its value over in `seen` is the model's choice: log entry 13. -/
def Obligations.HaltedUntilReset : Prop :=
  ∀ s : State, (s.halted = true ↔ s.faultCause.extractLsb' 0 8 ≠ 0) ∧
    (s.halted = true →
      (∀ w, perform (.issue w) s = .next s) ∧
      (∀ (a : HostAction) (t : State), perform a s = .next t → a ≠ .reset →
        t.halted = true ∧ t.faultCause = s.faultCause ∧ t.faultInfo = s.faultInfo) ∧
      (∃ t, perform .reset s = .next t ∧ t.halted = false) ∧
      (∀ num, ∃ t, perform (.read num) s = .next t ∧ t.seen = s.seen ++ [readNumber s num]) ∧
      (∀ num v, num ∈ ([0x08, 0x09, 0x0A, 0x0B, 0x0C, 0x0D] : List (BitVec 8)) →
        ∃ t, perform (.write num v) s = .next t ∧ readNumber t num = v) ∧
      ∀ b : List Byte, b.length ≤ Config.maxLen → b.length < 2 ^ 64 → ∃ t, perform (.load b) s = .next t ∧ t.input = b)

/-- Every command ends, and all or nothing (60_exceptions.md rule R262): it takes no fault and leaves the fault registers, or it
takes one and writes nothing else. -/
def Obligations.CommandsAreAllOrNothing : Prop :=
  ∀ (i : Instr) (s : State), s.halted = false →
    ∃ t, exec i s = .next t ∧
      ((t.halted = false ∧ Reference.keepsFault s t) ∨ (t.halted = true ∧ Reference.faultOnly s t))

/-- 60_exceptions.md rule R268: BLOCK_STEP outside LOOP and FINALIZE outside TAIL take SEQUENCE with their word, and no other
command, and neither of them elsewhere, does. -/
def Obligations.SequenceFaultExactlyOutOfOrder : Prop :=
  ∀ (i : Instr) (s t : State), s.halted = false → exec i s = .next t →
    (t.faultCause = 2 ↔ (i = .blockStep ∧ s.seq ≠ .loop) ∨ (i = .finalize ∧ s.seq ≠ .tail)) ∧
    (t.faultCause = 2 → t = { s with faultCause := 2, faultInfo := (encode i).setWidth 64 })

/-- Only FETCH8, FETCH32, FETCH64 and WEAKMIX_MEM ever take OOB_READ (derived in 40_byte_readers.md as rule R106, in 45_entry_points.md
as rule R245), in every state that meets the invariant of 10_state.md rule R42 (`StepKeepsTheBlockInvariant`). -/
def Obligations.OnlyHostOffsetsReadOutOfBounds : Prop :=
  ∀ (i : Instr) (s t : State), s.halted = false → s.blockInv → exec i s = .next t → t.faultCause.extractLsb' 0 8 = 4 →
    i = .fetch8 ∨ i = .fetch32 ∨ i = .fetch64 ∨ i = .weakmixMem

/-! ### Frames -/

/-- Frame of the commands with one result register (30_encoding.md rule R82): FETCH8, FETCH32, FETCH64, ROTR64, ROTR32, SHIFTMIX,
COMBINE16, the three band commands, MUR and MIX64TO32 write RES0 at most, or the fault registers alone; every byte of INBUF reads
as before. -/
def Obligations.SingleResultFrame : Prop :=
  ∀ (i : Instr) (s t : State),
    i ∈ ([.fetch8, .fetch32, .fetch64, .rotr64, .rotr32, .shiftmix, .combine16, .hash0to16, .hash17to32, .hash33to64, .mur,
      .mix64to32] : List Instr) → exec i s = .next t →
    Reference.keepsInputs s t ∧ t.res1 = s.res1 ∧ t.blk = s.blk ∧ t.seq = s.seq ∧
      (Reference.keepsFault s t ∨ Reference.faultOnly s t)

/-- Frame of WEAKMIX and WEAKMIX_MEM: RES0 and RES1 at most, or the fault registers alone; every byte of INBUF reads as before
(30_encoding.md rule R82). -/
def Obligations.PairResultFrame : Prop :=
  ∀ (i : Instr) (s t : State), i = .weakmix ∨ i = .weakmixMem → exec i s = .next t →
    Reference.keepsInputs s t ∧ t.blk = s.blk ∧ t.seq = s.seq ∧ (Reference.keepsFault s t ∨ Reference.faultOnly s t)

/-- Frame of the block commands (30_encoding.md rule R82): BLOCK_INIT keeps MUL, RES0 and RES1; BLOCK_STEP keeps END, LAST64, MUL,
RES0 and RES1; FINALIZE keeps END, LAST64 and RES1; each writes the fault registers alone where it faults; every byte of INBUF
reads as before. -/
def Obligations.BlockCommandFrame : Prop :=
  ∀ s t : State,
    (exec .blockInit s = .next t → Reference.keepsInputs s t ∧ t.res0 = s.res0 ∧ t.res1 = s.res1 ∧ t.blk.mul = s.blk.mul ∧
      (Reference.keepsFault s t ∨ Reference.faultOnly s t)) ∧
    (exec .blockStep s = .next t → Reference.keepsInputs s t ∧ t.res0 = s.res0 ∧ t.res1 = s.res1 ∧
      t.blk.endOff = s.blk.endOff ∧ t.blk.last64 = s.blk.last64 ∧ t.blk.mul = s.blk.mul ∧
      (Reference.keepsFault s t ∨ Reference.faultOnly s t)) ∧
    (exec .finalize s = .next t → Reference.keepsInputs s t ∧ t.res1 = s.res1 ∧
      t.blk.endOff = s.blk.endOff ∧ t.blk.last64 = s.blk.last64 ∧
      (Reference.keepsFault s t ∨ Reference.faultOnly s t))

/-- Frame of HASH64 and HASH32 (30_encoding.md rule R82): no fault register changes, HASH64 keeps RES1, and for LEN <= 64 both keep
the block registers; every byte of INBUF reads as before. -/
def Obligations.EntryPointFrame : Prop :=
  ∀ (i : Instr) (s t : State), i = .hash64 ∨ i = .hash32 → exec i s = .next t →
    Reference.keepsInputs s t ∧ Reference.keepsFault s t ∧ t.seq = .idle ∧
      (i = .hash64 → t.res1 = s.res1) ∧ (s.len.toNat ≤ 64 → t.blk = s.blk)

/-! ### Invariants -/

/-- The invariants at the reset state (70_reset_and_hazards.md rule R301). The canonical form in `inputInv` is the model's choice:
log entry 6. -/
def Obligations.ResetMeetsTheInvariants : Prop :=
  State.reset.blockInv ∧ State.reset.inputInv ∧ State.reset.capacityInv ∧ State.reset.faultInv

/-- Every step keeps the block-state invariant (derived in 10_state.md as rule R42), whatever the host's next action. -/
def Obligations.StepKeepsTheBlockInvariant : Prop :=
  ∀ s t : State, s.blockInv → step s = .next t → t.blockInv

/-- Every step keeps INBUF in its canonical form, with no cell at LEN or above and LEN at most MAX_LEN (10_state.md rules R22 and R23;
the form is the model's choice: log entry 6). -/
def Obligations.StepKeepsTheInputForm : Prop :=
  ∀ s t : State, s.inputInv → s.capacityInv → step s = .next t → t.inputInv ∧ t.capacityInv

/-- Every step keeps FAULT_CAUSE at one of the values the spec gives it, and FAULT_INFO at 0 while there is no fault
(10_state.md rule R33, 60_exceptions.md rule R261). -/
def Obligations.StepKeepsTheFaultRegistersLegal : Prop :=
  ∀ s t : State, s.faultInv → step s = .next t → t.faultInv

/-! ### Completion -/

/-- The commands that have no exception complete in every state that is not halted, on all operands and every input: ROTR64,
ROTR32, SHIFTMIX, COMBINE16, WEAKMIX (41_mixers.md rules R130 to R134), MUR, MIX64TO32 (44_fold32.md rules R230 and R231), HASH64
and HASH32 (45_entry_points.md rules R242 and R244: "Exceptions: none"). The block is not halted after them, and the fault
registers, LEN, the operands and every byte of INBUF are as before. -/
def Obligations.CommandsWithoutExceptionComplete : Prop :=
  ∀ (i : Instr) (s : State),
    i ∈ ([.rotr64, .rotr32, .shiftmix, .combine16, .weakmix, .mur, .mix64to32, .hash64, .hash32] : List Instr) →
    s.halted = false →
    ∃ t, exec i s = .next t ∧ t.halted = false ∧ Reference.keepsFault s t ∧ Reference.keepsInputs s t
end

