-- ==== Sys2Proof/Laws/Memory.lean ====
section
/-! SUPPORT. What INBUF's operations do: loading keeps the canonical form and gives back each byte, and the input is the list of
the bytes below LEN. -/

namespace Sys2Proof.Machine

/-- A zero byte is not listed. -/
theorem ofBytesAt_zero (base : Nat) {x : Byte} (xs : List Byte) (h : x = 0) :
    Memory.ofBytesAt base (x :: xs) = Memory.ofBytesAt (base + 1) xs := if_pos h

/-- Any other byte is. -/
theorem ofBytesAt_nonzero (base : Nat) {x : Byte} (xs : List Byte) (h : ¬x = 0) :
    Memory.ofBytesAt base (x :: xs) = (base, x) :: Memory.ofBytesAt (base + 1) xs := if_neg h

/-- What a loaded memory reads at each offset. -/
theorem byteAt_ofBytesAt (b : List Byte) (base off : Nat) :
    (Memory.ofBytesAt base b).byteAt off = if base ≤ off then b.getD (off - base) 0 else 0 := by
  induction b generalizing base with
  | nil => simp [Memory.ofBytesAt, Memory.byteAt]
  | cons x xs ih =>
    have tail : ∀ h : base ≤ off, base ≠ off → (x :: xs).getD (off - base) 0 = xs.getD (off - (base + 1)) 0 := by
      intro h hne
      rw [show off - base = (off - (base + 1)) + 1 by omega, List.getD_cons_succ]
    by_cases hb : base = off
    · subst hb
      by_cases hx : x = 0
      · rw [ofBytesAt_zero _ _ hx, ih]
        simp [hx]
      · simp [ofBytesAt_nonzero _ _ hx, Memory.byteAt]
    · have h1 : (Memory.ofBytesAt base (x :: xs)).byteAt off = (Memory.ofBytesAt (base + 1) xs).byteAt off := by
        by_cases hx : x = 0
        · rw [ofBytesAt_zero _ _ hx]
        · simp [ofBytesAt_nonzero _ _ hx, Memory.byteAt, hb]
      rw [h1, ih]
      by_cases h : base ≤ off
      · rw [if_pos h, if_pos (by omega), tail h hb]
      · rw [if_neg h, if_neg (by omega)]

/-- HOST_LOAD gives INBUF[i] = b[i], and 0 beyond. -/
@[simp] theorem byteAt_ofBytes (b : List Byte) (off : Nat) : (Memory.ofBytes b).byteAt off = b.getD off 0 := by
  simp [Memory.ofBytes, byteAt_ofBytesAt]

/-- A lower starting offset asks less. -/
theorem wfFrom_mono {m : Memory} {lo lo' : Nat} (h : lo ≤ lo') (hm : Memory.wfFrom lo' m = true) : Memory.wfFrom lo m = true := by
  cases m with
  | nil => rfl
  | cons c rest =>
    simp only [Memory.wfFrom, Bool.and_eq_true, decide_eq_true_eq] at hm ⊢
    exact ⟨⟨by omega, hm.1.2⟩, hm.2⟩

/-- Loading builds the canonical form. -/
theorem wfFrom_ofBytesAt (b : List Byte) (base : Nat) : Memory.wfFrom base (Memory.ofBytesAt base b) = true := by
  induction b generalizing base with
  | nil => rfl
  | cons x xs ih =>
    by_cases hx : x = 0
    · rw [ofBytesAt_zero _ _ hx]
      exact wfFrom_mono (Nat.le_succ base) (ih (base + 1))
    · simpa [ofBytesAt_nonzero _ _ hx, Memory.wfFrom, ih] using hx

/-- HOST_LOAD leaves the canonical form. -/
theorem wf_ofBytes (b : List Byte) : (Memory.ofBytes b).wf = true := wfFrom_ofBytesAt b 0

/-- Loading lists no offset at or past the end. -/
theorem within_ofBytesAt (b : List Byte) (base : Nat) : (Memory.ofBytesAt base b).within (base + b.length) = true := by
  induction b generalizing base with
  | nil => rfl
  | cons x xs ih =>
    have h := ih (base + 1)
    rw [show base + 1 + xs.length = base + (x :: xs).length by simp; omega] at h
    by_cases hx : x = 0
    · rwa [ofBytesAt_zero _ _ hx]
    · rw [ofBytesAt_nonzero _ _ hx, Memory.within, List.all_cons, Bool.and_eq_true, decide_eq_true_eq]
      exact ⟨by simp, h⟩

/-- HOST_LOAD lists no offset of LEN or more. -/
theorem within_ofBytes (b : List Byte) : (Memory.ofBytes b).within b.length = true := by
  simpa [Memory.ofBytes] using within_ofBytesAt b 0

/-- The memory after reset has the canonical form. -/
theorem wf_reset : State.reset.inbuf.wf = true := rfl

@[simp] theorem State.input_length (s : State) : s.input.length = s.len.toNat := by simp [State.input]

/-- Byte `i` of the input is INBUF[i]. -/
theorem State.input_getElem (s : State) (i : Nat) (h : i < s.input.length) : s.input[i] = s.inbuf.byteAt i := by
  simp [State.input]

/-- Two states with the same LEN and the same bytes below it hold the same input. -/
theorem input_congr {s t : State} (hl : t.len = s.len) (hb : ∀ off, off < s.len.toNat → t.inbuf.byteAt off = s.inbuf.byteAt off) :
    t.input = s.input := by
  simp only [State.input, hl]
  exact List.map_congr_left fun i hi => hb i (List.mem_range.mp hi)

/-- The input of a state that was loaded with `b` is `b`. -/
theorem input_ofBytes {t : State} {b : List Byte} (hm : t.inbuf = Memory.ofBytes b) (hl : t.len.toNat = b.length) :
    t.input = b := by
  apply List.ext_getElem
  · simp [hl]
  · intro i h1 h2
    rw [State.input_getElem, hm, byteAt_ofBytes, List.getD_eq_getElem b 0 h2]

end Sys2Proof.Machine
end

