-- ==== Sys2Proof/Laws/Reads.lean ====
section
/-! SUPPORT. What MemRead and the byte readers do: the bound, the bytes of the result, and their agreement with the closed forms of
Sys2Proof.Reference on the input. -/

namespace Sys2Proof.Machine

/-- The value of the `n` bytes at `off`, as a natural number. -/
def byteSum (m : Memory) (off : Nat) : Nat → Nat
  | 0 => 0
  | n + 1 => byteSum m off n + (m.byteAt (off + n)).toNat * 2 ^ (8 * n)

theorem byteSum_lt (m : Memory) (off n : Nat) : byteSum m off n < 2 ^ (8 * n) := by
  induction n with
  | zero => simp [byteSum]
  | succ n ih =>
    have hb := (m.byteAt (off + n)).isLt
    have h : (m.byteAt (off + n)).toNat * 2 ^ (8 * n) ≤ 255 * 2 ^ (8 * n) := Nat.mul_le_mul_right _ (by omega)
    rw [byteSum, show 8 * (n + 1) = 8 * n + 8 by omega, Nat.pow_add]
    omega

/-- `assemble` does not wrap where the bytes fit in the width. -/
theorem assemble_toNat (w : Nat) (m : Memory) (off n : Nat) (h : 8 * n ≤ w) :
    (assemble w m off n).toNat = byteSum m off n := by
  induction n with
  | zero => simp [assemble, byteSum]
  | succ n ih =>
    have hlt : byteSum m off (n + 1) < 2 ^ w :=
      Nat.lt_of_lt_of_le (byteSum_lt m off (n + 1)) (Nat.pow_le_pow_right (by omega) h)
    have hb := (m.byteAt (off + n)).isLt
    have hs : ((m.byteAt (off + n)).setWidth w <<< (8 * n)).toNat = (m.byteAt (off + n)).toNat * 2 ^ (8 * n) := by
      rw [BitVec.toNat_shiftLeft, BitVec.toNat_setWidth, Nat.shiftLeft_eq,
        Nat.mod_eq_of_lt (Nat.lt_of_lt_of_le hb (Nat.pow_le_pow_right (by omega) (by omega : 8 ≤ w)))]
      rw [byteSum] at hlt
      exact Nat.mod_eq_of_lt (by omega)
    rw [assemble, BitVec.toNat_add, ih (by omega), hs]
    exact Nat.mod_eq_of_lt hlt

/-- Byte `i` of the sum. -/
theorem byteSum_byte (m : Memory) (off n i : Nat) (hi : i < n) :
    byteSum m off n / 2 ^ (8 * i) % 256 = (m.byteAt (off + i)).toNat := by
  induction n with
  | zero => omega
  | succ n ih =>
    have hb := (m.byteAt (off + n)).isLt
    have hs := byteSum_lt m off n
    rw [byteSum]
    by_cases h : i = n
    · subst h
      rw [Nat.add_mul_div_right _ _ (Nat.two_pow_pos _), Nat.div_eq_of_lt hs]
      omega
    · have hp : (2 : Nat) ^ (8 * n) = 256 * 2 ^ (8 * (n - i - 1)) * 2 ^ (8 * i) := by
        rw [show (256 : Nat) = 2 ^ 8 by rfl, ← Nat.pow_add, ← Nat.pow_add]
        congr 1
        omega
      rw [hp, ← Nat.mul_assoc, Nat.add_mul_div_right _ _ (Nat.two_pow_pos _), ← ih (by omega)]
      rw [show (m.byteAt (off + n)).toNat * (256 * 2 ^ (8 * (n - i - 1)))
        = 256 * ((m.byteAt (off + n)).toNat * 2 ^ (8 * (n - i - 1))) by ring]
      omega

/-- Byte `i` of an assembled value is the byte at `off + i` (20_memory.md rule R61). -/
theorem assemble_byte (w : Nat) (m : Memory) (off n i : Nat) (h : 8 * n ≤ w) (hi : i < n) :
    (assemble w m off n).extractLsb' (8 * i) 8 = m.byteAt (off + i) := by
  apply BitVec.eq_of_toNat_eq
  rw [BitVec.extractLsb'_toNat, assemble_toNat w m off n h, Nat.shiftRight_eq_div_pow]
  exact byteSum_byte m off n i hi

/-! ### MemRead -/

/-- Everything MemRead does (20_memory.md rule R61). -/
theorem memRead_cases (w : Nat) (s : State) (off n : Nat) :
    (s.len.toNat < off + n ∧ memRead w s off n = .error (.oobRead off n)) ∨
      (off + n ≤ s.len.toNat ∧ memRead w s off n = .ok (assemble w s.inbuf off n)) := by
  unfold memRead
  by_cases h : off + n > s.len.toNat
  · exact .inl ⟨h, if_pos h⟩
  · exact .inr ⟨by omega, if_neg h⟩

theorem memRead_ok {w : Nat} {s : State} {off n : Nat} (h : off + n ≤ s.len.toNat) :
    memRead w s off n = .ok (assemble w s.inbuf off n) := if_neg (by omega)

theorem memRead_error {w : Nat} {s : State} {off n : Nat} (h : s.len.toNat < off + n) :
    memRead w s off n = .error (.oobRead off n) := if_pos h

/-! ### Agreement with the closed forms -/

theorem leValue_take_succ (l : List Byte) (n : Nat) (h : n < l.length) :
    Reference.leValue (l.take (n + 1)) = Reference.leValue (l.take n) + l[n].toNat * 2 ^ (8 * n) := by
  induction l generalizing n with
  | nil => simp at h
  | cons x xs ih =>
    cases n with
    | zero => simp [Reference.leValue]
    | succ k =>
      have hk : k < xs.length := by simpa using h
      simp only [List.take_succ_cons, Reference.leValue, List.getElem_cons_succ, ih k hk]
      rw [show 8 * (k + 1) = 8 * k + 8 by omega, Nat.pow_add]
      ring

theorem byteSum_eq_leValue (s : State) (off n : Nat) (h : off + n ≤ s.len.toNat) :
    byteSum s.inbuf off n = Reference.leValue ((s.input.drop off).take n) := by
  induction n with
  | zero => simp [byteSum, Reference.leValue]
  | succ n ih =>
    have hn : n < (s.input.drop off).length := by simp; omega
    rw [byteSum, ih (by omega), leValue_take_succ _ _ hn, List.getElem_drop, State.input_getElem]

theorem assemble_eq_ofNat (w : Nat) (s : State) (off n : Nat) (hw : 8 * n ≤ w) (h : off + n ≤ s.len.toNat) :
    assemble w s.inbuf off n = BitVec.ofNat w (Reference.leValue ((s.input.drop off).take n)) := by
  apply BitVec.eq_of_toNat_eq
  rw [assemble_toNat w _ _ _ hw, byteSum_eq_leValue s off n h, BitVec.toNat_ofNat, ← byteSum_eq_leValue s off n h]
  exact (Nat.mod_eq_of_lt (Nat.lt_of_lt_of_le (byteSum_lt s.inbuf off n) (Nat.pow_le_pow_right (by omega) hw))).symm

/-- An 8-byte read inside the input is the closed form's (40_byte_readers.md rule R102). -/
theorem fetch64_ok {s : State} {off : Nat} (h : off + 8 ≤ s.len.toNat) :
    fetch64 s off = .ok (Reference.u64 s.input off) := by
  rw [fetch64, memRead_ok h, assemble_eq_ofNat 64 s off 8 (by omega) h]
  rfl

/-- A 4-byte read inside the input is the closed form's (rule R101). -/
theorem fetch32_ok {s : State} {off : Nat} (h : off + 4 ≤ s.len.toNat) :
    fetch32 s off = .ok (Reference.u32 s.input off) := by
  rw [fetch32, memRead_ok h, assemble_eq_ofNat 32 s off 4 (by omega) h]
  rfl

theorem assemble_one (m : Memory) (off : Nat) : assemble 8 m off 1 = m.byteAt off := by
  simp [assemble]

/-- A 1-byte read inside the input is the closed form's (rule R100). -/
theorem fetch8_ok {s : State} {off : Nat} (h : off + 1 ≤ s.len.toNat) :
    fetch8 s off = .ok (Reference.u8 s.input off) := by
  have hlt : off < s.input.length := by simp; omega
  rw [fetch8, memRead_ok h, assemble_one, Reference.u8, List.getD_eq_getElem _ _ hlt, State.input_getElem]

/-- A reader past LEN fails with its offset and width (rules R100 to R102). -/
theorem fetch64_error {s : State} {off : Nat} (h : s.len.toNat < off + 8) : fetch64 s off = .error (.oobRead off 8) :=
  memRead_error h

theorem fetch32_error {s : State} {off : Nat} (h : s.len.toNat < off + 4) : fetch32 s off = .error (.oobRead off 4) :=
  memRead_error h

theorem fetch8_error {s : State} {off : Nat} (h : s.len.toNat < off + 1) : fetch8 s off = .error (.oobRead off 1) :=
  memRead_error h

end Sys2Proof.Machine
end

