-- ==== Sys2Proof/Laws/Mixers.lean ====
section
/-! SUPPORT. The rotations are the library's, and the weak mixer has its closed form. -/

namespace Sys2Proof.Machine

/-- `rotr64` is the library's rotation (41_mixers.md rule R120). -/
theorem rotr64_eq_rotateRight (v : Word) (s : Nat) (h : s < 64) : rotr64 v s = v.rotateRight s := by
  unfold rotr64
  by_cases hs : s = 0
  · simp [hs, BitVec.rotateRight_def]
  · simp [hs, BitVec.rotateRight_def, Nat.mod_eq_of_lt h]

/-- `rotr32` is the library's rotation (rule R121). -/
theorem rotr32_eq_rotateRight (v : Half) (s : Nat) (h : s < 32) : rotr32 v s = v.rotateRight s := by
  unfold rotr32
  by_cases hs : s = 0
  · simp [hs, BitVec.rotateRight_def]
  · simp [hs, BitVec.rotateRight_def, Nat.mod_eq_of_lt h]

/-- `weak_mix` in closed form (rules R124 and R126). -/
theorem weakMix_eq_closed (w x y z a b : Word) : weakMix w x y z a b = Reference.weakMix w x y z a b := by
  simp [weakMix, Reference.weakMix, rotr64_eq_rotateRight, BitVec.add_assoc]

/-- `weak_mix_mem` inside the input (rule R125). -/
theorem weakMixMem_ok {s : State} {off : Nat} (a b : Word) (h : off + 32 ≤ s.len.toNat) :
    weakMixMem s off a b = .ok (Reference.weakMixAt s.input off a b) := by
  unfold weakMixMem
  rw [fetch64_ok (by omega), fetch64_ok (by omega), fetch64_ok (by omega), fetch64_ok (by omega)]
  simp [Reference.weakMixAt, weakMix_eq_closed, bind, Except.bind]

/-- `weak_mix_mem` past the input fails at the first of its reads that does (rule R125, 60_exceptions.md rule R270). -/
theorem weakMixMem_error {s : State} {off k : Nat} (a b : Word) (hk : k < 4) (h : s.len.toNat < off + 8 * k + 8)
    (hj : ∀ j, j < k → off + 8 * j + 8 ≤ s.len.toNat) : weakMixMem s off a b = .error (.oobRead (off + 8 * k) 8) := by
  unfold weakMixMem
  have ok : ∀ j, j < k → ∃ v, fetch64 s (off + 8 * j) = .ok v := fun j hjk => ⟨_, fetch64_ok (hj j hjk)⟩
  have bad : fetch64 s (off + 8 * k) = .error (.oobRead (off + 8 * k) 8) := fetch64_error h
  match k, hk with
  | 0, _ => simp only [Nat.mul_zero, Nat.add_zero] at bad ⊢; rw [bad]; rfl
  | 1, _ =>
    obtain ⟨v0, h0⟩ := ok 0 (by omega)
    simp only [Nat.mul_zero, Nat.add_zero, Nat.mul_one] at h0 bad ⊢
    rw [h0, bad]; rfl
  | 2, _ =>
    obtain ⟨v0, h0⟩ := ok 0 (by omega)
    obtain ⟨v1, h1⟩ := ok 1 (by omega)
    simp only [Nat.mul_zero, Nat.add_zero, Nat.mul_one, Nat.reduceMul] at h0 h1 bad ⊢
    rw [h0, h1, bad]; rfl
  | 3, _ =>
    obtain ⟨v0, h0⟩ := ok 0 (by omega)
    obtain ⟨v1, h1⟩ := ok 1 (by omega)
    obtain ⟨v2, h2⟩ := ok 2 (by omega)
    simp only [Nat.mul_zero, Nat.add_zero, Nat.mul_one, Nat.reduceMul] at h0 h1 h2 bad ⊢
    rw [h0, h1, h2, bad]; rfl

/-- `mur` in closed form with its literals (44_fold32.md rule R220). -/
theorem mur_eq_closed (a h : Half) : mur a h = Reference.mur a h := by
  simp [mur, Reference.mur, rotr32_eq_rotateRight, c1, c2]

/-- `mix64to32` in closed form (rule R221). -/
theorem mix64to32With_eq_closed (o : MixOrder) (x : Word) : mix64to32With o x = Reference.mix64to32 o x := by
  cases o <;> simp [mix64to32With, Reference.mix64to32, mur_eq_closed]

end Sys2Proof.Machine
end

