-- ==== Sys2Proof/Laws/State.lean ====
section
/-! SUPPORT. One lemma per field per update of State, so that no proof unfolds a record update. -/

namespace Sys2Proof.Machine

variable (s : State)

/-! ### setRes0 -/

@[simp] theorem State.setRes0_inbuf (v : Word) : (s.setRes0 v).inbuf = s.inbuf := rfl
@[simp] theorem State.setRes0_len (v : Word) : (s.setRes0 v).len = s.len := rfl
@[simp] theorem State.setRes0_op0 (v : Word) : (s.setRes0 v).op0 = s.op0 := rfl
@[simp] theorem State.setRes0_op1 (v : Word) : (s.setRes0 v).op1 = s.op1 := rfl
@[simp] theorem State.setRes0_op2 (v : Word) : (s.setRes0 v).op2 = s.op2 := rfl
@[simp] theorem State.setRes0_op3 (v : Word) : (s.setRes0 v).op3 = s.op3 := rfl
@[simp] theorem State.setRes0_op4 (v : Word) : (s.setRes0 v).op4 = s.op4 := rfl
@[simp] theorem State.setRes0_op5 (v : Word) : (s.setRes0 v).op5 = s.op5 := rfl
@[simp] theorem State.setRes0_res0 (v : Word) : (s.setRes0 v).res0 = v := rfl
@[simp] theorem State.setRes0_res1 (v : Word) : (s.setRes0 v).res1 = s.res1 := rfl
@[simp] theorem State.setRes0_blk (v : Word) : (s.setRes0 v).blk = s.blk := rfl
@[simp] theorem State.setRes0_seq (v : Word) : (s.setRes0 v).seq = s.seq := rfl
@[simp] theorem State.setRes0_faultCause (v : Word) : (s.setRes0 v).faultCause = s.faultCause := rfl
@[simp] theorem State.setRes0_faultInfo (v : Word) : (s.setRes0 v).faultInfo = s.faultInfo := rfl
@[simp] theorem State.setRes0_pending (v : Word) : (s.setRes0 v).pending = s.pending := rfl
@[simp] theorem State.setRes0_seen (v : Word) : (s.setRes0 v).seen = s.seen := rfl

/-! ### setRes0Half -/

@[simp] theorem State.setRes0Half_inbuf (v : Half) : (s.setRes0Half v).inbuf = s.inbuf := rfl
@[simp] theorem State.setRes0Half_len (v : Half) : (s.setRes0Half v).len = s.len := rfl
@[simp] theorem State.setRes0Half_op0 (v : Half) : (s.setRes0Half v).op0 = s.op0 := rfl
@[simp] theorem State.setRes0Half_op1 (v : Half) : (s.setRes0Half v).op1 = s.op1 := rfl
@[simp] theorem State.setRes0Half_op2 (v : Half) : (s.setRes0Half v).op2 = s.op2 := rfl
@[simp] theorem State.setRes0Half_op3 (v : Half) : (s.setRes0Half v).op3 = s.op3 := rfl
@[simp] theorem State.setRes0Half_op4 (v : Half) : (s.setRes0Half v).op4 = s.op4 := rfl
@[simp] theorem State.setRes0Half_op5 (v : Half) : (s.setRes0Half v).op5 = s.op5 := rfl
@[simp] theorem State.setRes0Half_res0 (v : Half) : (s.setRes0Half v).res0 = v.setWidth 64 := rfl
@[simp] theorem State.setRes0Half_res1 (v : Half) : (s.setRes0Half v).res1 = s.res1 := rfl
@[simp] theorem State.setRes0Half_blk (v : Half) : (s.setRes0Half v).blk = s.blk := rfl
@[simp] theorem State.setRes0Half_seq (v : Half) : (s.setRes0Half v).seq = s.seq := rfl
@[simp] theorem State.setRes0Half_faultCause (v : Half) : (s.setRes0Half v).faultCause = s.faultCause := rfl
@[simp] theorem State.setRes0Half_faultInfo (v : Half) : (s.setRes0Half v).faultInfo = s.faultInfo := rfl
@[simp] theorem State.setRes0Half_pending (v : Half) : (s.setRes0Half v).pending = s.pending := rfl
@[simp] theorem State.setRes0Half_seen (v : Half) : (s.setRes0Half v).seen = s.seen := rfl

/-! ### setRes1 -/

@[simp] theorem State.setRes1_inbuf (v : Word) : (s.setRes1 v).inbuf = s.inbuf := rfl
@[simp] theorem State.setRes1_len (v : Word) : (s.setRes1 v).len = s.len := rfl
@[simp] theorem State.setRes1_op0 (v : Word) : (s.setRes1 v).op0 = s.op0 := rfl
@[simp] theorem State.setRes1_op1 (v : Word) : (s.setRes1 v).op1 = s.op1 := rfl
@[simp] theorem State.setRes1_op2 (v : Word) : (s.setRes1 v).op2 = s.op2 := rfl
@[simp] theorem State.setRes1_op3 (v : Word) : (s.setRes1 v).op3 = s.op3 := rfl
@[simp] theorem State.setRes1_op4 (v : Word) : (s.setRes1 v).op4 = s.op4 := rfl
@[simp] theorem State.setRes1_op5 (v : Word) : (s.setRes1 v).op5 = s.op5 := rfl
@[simp] theorem State.setRes1_res0 (v : Word) : (s.setRes1 v).res0 = s.res0 := rfl
@[simp] theorem State.setRes1_res1 (v : Word) : (s.setRes1 v).res1 = v := rfl
@[simp] theorem State.setRes1_blk (v : Word) : (s.setRes1 v).blk = s.blk := rfl
@[simp] theorem State.setRes1_seq (v : Word) : (s.setRes1 v).seq = s.seq := rfl
@[simp] theorem State.setRes1_faultCause (v : Word) : (s.setRes1 v).faultCause = s.faultCause := rfl
@[simp] theorem State.setRes1_faultInfo (v : Word) : (s.setRes1 v).faultInfo = s.faultInfo := rfl
@[simp] theorem State.setRes1_pending (v : Word) : (s.setRes1 v).pending = s.pending := rfl
@[simp] theorem State.setRes1_seen (v : Word) : (s.setRes1 v).seen = s.seen := rfl

/-! ### setResPair -/

@[simp] theorem State.setResPair_inbuf (p : Pair) : (s.setResPair p).inbuf = s.inbuf := rfl
@[simp] theorem State.setResPair_len (p : Pair) : (s.setResPair p).len = s.len := rfl
@[simp] theorem State.setResPair_op0 (p : Pair) : (s.setResPair p).op0 = s.op0 := rfl
@[simp] theorem State.setResPair_op1 (p : Pair) : (s.setResPair p).op1 = s.op1 := rfl
@[simp] theorem State.setResPair_op2 (p : Pair) : (s.setResPair p).op2 = s.op2 := rfl
@[simp] theorem State.setResPair_op3 (p : Pair) : (s.setResPair p).op3 = s.op3 := rfl
@[simp] theorem State.setResPair_op4 (p : Pair) : (s.setResPair p).op4 = s.op4 := rfl
@[simp] theorem State.setResPair_op5 (p : Pair) : (s.setResPair p).op5 = s.op5 := rfl
@[simp] theorem State.setResPair_res0 (p : Pair) : (s.setResPair p).res0 = p.lo := rfl
@[simp] theorem State.setResPair_res1 (p : Pair) : (s.setResPair p).res1 = p.hi := rfl
@[simp] theorem State.setResPair_blk (p : Pair) : (s.setResPair p).blk = s.blk := rfl
@[simp] theorem State.setResPair_seq (p : Pair) : (s.setResPair p).seq = s.seq := rfl
@[simp] theorem State.setResPair_faultCause (p : Pair) : (s.setResPair p).faultCause = s.faultCause := rfl
@[simp] theorem State.setResPair_faultInfo (p : Pair) : (s.setResPair p).faultInfo = s.faultInfo := rfl
@[simp] theorem State.setResPair_pending (p : Pair) : (s.setResPair p).pending = s.pending := rfl
@[simp] theorem State.setResPair_seen (p : Pair) : (s.setResPair p).seen = s.seen := rfl

/-! ### setBlk -/

@[simp] theorem State.setBlk_inbuf (b : BlockRegs) : (s.setBlk b).inbuf = s.inbuf := rfl
@[simp] theorem State.setBlk_len (b : BlockRegs) : (s.setBlk b).len = s.len := rfl
@[simp] theorem State.setBlk_op0 (b : BlockRegs) : (s.setBlk b).op0 = s.op0 := rfl
@[simp] theorem State.setBlk_op1 (b : BlockRegs) : (s.setBlk b).op1 = s.op1 := rfl
@[simp] theorem State.setBlk_op2 (b : BlockRegs) : (s.setBlk b).op2 = s.op2 := rfl
@[simp] theorem State.setBlk_op3 (b : BlockRegs) : (s.setBlk b).op3 = s.op3 := rfl
@[simp] theorem State.setBlk_op4 (b : BlockRegs) : (s.setBlk b).op4 = s.op4 := rfl
@[simp] theorem State.setBlk_op5 (b : BlockRegs) : (s.setBlk b).op5 = s.op5 := rfl
@[simp] theorem State.setBlk_res0 (b : BlockRegs) : (s.setBlk b).res0 = s.res0 := rfl
@[simp] theorem State.setBlk_res1 (b : BlockRegs) : (s.setBlk b).res1 = s.res1 := rfl
@[simp] theorem State.setBlk_blk (b : BlockRegs) : (s.setBlk b).blk = b := rfl
@[simp] theorem State.setBlk_seq (b : BlockRegs) : (s.setBlk b).seq = s.seq := rfl
@[simp] theorem State.setBlk_faultCause (b : BlockRegs) : (s.setBlk b).faultCause = s.faultCause := rfl
@[simp] theorem State.setBlk_faultInfo (b : BlockRegs) : (s.setBlk b).faultInfo = s.faultInfo := rfl
@[simp] theorem State.setBlk_pending (b : BlockRegs) : (s.setBlk b).pending = s.pending := rfl
@[simp] theorem State.setBlk_seen (b : BlockRegs) : (s.setBlk b).seen = s.seen := rfl

/-! ### setSeq -/

@[simp] theorem State.setSeq_inbuf (q : Seq) : (s.setSeq q).inbuf = s.inbuf := rfl
@[simp] theorem State.setSeq_len (q : Seq) : (s.setSeq q).len = s.len := rfl
@[simp] theorem State.setSeq_op0 (q : Seq) : (s.setSeq q).op0 = s.op0 := rfl
@[simp] theorem State.setSeq_op1 (q : Seq) : (s.setSeq q).op1 = s.op1 := rfl
@[simp] theorem State.setSeq_op2 (q : Seq) : (s.setSeq q).op2 = s.op2 := rfl
@[simp] theorem State.setSeq_op3 (q : Seq) : (s.setSeq q).op3 = s.op3 := rfl
@[simp] theorem State.setSeq_op4 (q : Seq) : (s.setSeq q).op4 = s.op4 := rfl
@[simp] theorem State.setSeq_op5 (q : Seq) : (s.setSeq q).op5 = s.op5 := rfl
@[simp] theorem State.setSeq_res0 (q : Seq) : (s.setSeq q).res0 = s.res0 := rfl
@[simp] theorem State.setSeq_res1 (q : Seq) : (s.setSeq q).res1 = s.res1 := rfl
@[simp] theorem State.setSeq_blk (q : Seq) : (s.setSeq q).blk = s.blk := rfl
@[simp] theorem State.setSeq_seq (q : Seq) : (s.setSeq q).seq = q := rfl
@[simp] theorem State.setSeq_faultCause (q : Seq) : (s.setSeq q).faultCause = s.faultCause := rfl
@[simp] theorem State.setSeq_faultInfo (q : Seq) : (s.setSeq q).faultInfo = s.faultInfo := rfl
@[simp] theorem State.setSeq_pending (q : Seq) : (s.setSeq q).pending = s.pending := rfl
@[simp] theorem State.setSeq_seen (q : Seq) : (s.setSeq q).seen = s.seen := rfl

/-! ### setInput -/

@[simp] theorem State.setInput_inbuf (m : Memory) (n : Word) : (s.setInput m n).inbuf = m := rfl
@[simp] theorem State.setInput_len (m : Memory) (n : Word) : (s.setInput m n).len = n := rfl
@[simp] theorem State.setInput_op0 (m : Memory) (n : Word) : (s.setInput m n).op0 = s.op0 := rfl
@[simp] theorem State.setInput_op1 (m : Memory) (n : Word) : (s.setInput m n).op1 = s.op1 := rfl
@[simp] theorem State.setInput_op2 (m : Memory) (n : Word) : (s.setInput m n).op2 = s.op2 := rfl
@[simp] theorem State.setInput_op3 (m : Memory) (n : Word) : (s.setInput m n).op3 = s.op3 := rfl
@[simp] theorem State.setInput_op4 (m : Memory) (n : Word) : (s.setInput m n).op4 = s.op4 := rfl
@[simp] theorem State.setInput_op5 (m : Memory) (n : Word) : (s.setInput m n).op5 = s.op5 := rfl
@[simp] theorem State.setInput_res0 (m : Memory) (n : Word) : (s.setInput m n).res0 = s.res0 := rfl
@[simp] theorem State.setInput_res1 (m : Memory) (n : Word) : (s.setInput m n).res1 = s.res1 := rfl
@[simp] theorem State.setInput_blk (m : Memory) (n : Word) : (s.setInput m n).blk = s.blk := rfl
@[simp] theorem State.setInput_seq (m : Memory) (n : Word) : (s.setInput m n).seq = s.seq := rfl
@[simp] theorem State.setInput_faultCause (m : Memory) (n : Word) : (s.setInput m n).faultCause = s.faultCause := rfl
@[simp] theorem State.setInput_faultInfo (m : Memory) (n : Word) : (s.setInput m n).faultInfo = s.faultInfo := rfl
@[simp] theorem State.setInput_pending (m : Memory) (n : Word) : (s.setInput m n).pending = s.pending := rfl
@[simp] theorem State.setInput_seen (m : Memory) (n : Word) : (s.setInput m n).seen = s.seen := rfl

/-! ### raiseFault -/

@[simp] theorem State.raiseFault_inbuf (t : Trap) : (s.raiseFault t).inbuf = s.inbuf := rfl
@[simp] theorem State.raiseFault_len (t : Trap) : (s.raiseFault t).len = s.len := rfl
@[simp] theorem State.raiseFault_op0 (t : Trap) : (s.raiseFault t).op0 = s.op0 := rfl
@[simp] theorem State.raiseFault_op1 (t : Trap) : (s.raiseFault t).op1 = s.op1 := rfl
@[simp] theorem State.raiseFault_op2 (t : Trap) : (s.raiseFault t).op2 = s.op2 := rfl
@[simp] theorem State.raiseFault_op3 (t : Trap) : (s.raiseFault t).op3 = s.op3 := rfl
@[simp] theorem State.raiseFault_op4 (t : Trap) : (s.raiseFault t).op4 = s.op4 := rfl
@[simp] theorem State.raiseFault_op5 (t : Trap) : (s.raiseFault t).op5 = s.op5 := rfl
@[simp] theorem State.raiseFault_res0 (t : Trap) : (s.raiseFault t).res0 = s.res0 := rfl
@[simp] theorem State.raiseFault_res1 (t : Trap) : (s.raiseFault t).res1 = s.res1 := rfl
@[simp] theorem State.raiseFault_blk (t : Trap) : (s.raiseFault t).blk = s.blk := rfl
@[simp] theorem State.raiseFault_seq (t : Trap) : (s.raiseFault t).seq = s.seq := rfl
@[simp] theorem State.raiseFault_faultCause (t : Trap) : (s.raiseFault t).faultCause = (t.width ++ t.code).setWidth 64 := rfl
@[simp] theorem State.raiseFault_faultInfo (t : Trap) : (s.raiseFault t).faultInfo = t.info := rfl
@[simp] theorem State.raiseFault_pending (t : Trap) : (s.raiseFault t).pending = s.pending := rfl
@[simp] theorem State.raiseFault_seen (t : Trap) : (s.raiseFault t).seen = s.seen := rfl

/-! ### hostReset -/

@[simp] theorem State.hostReset_inbuf : s.hostReset.inbuf = State.reset.inbuf := rfl
@[simp] theorem State.hostReset_len : s.hostReset.len = State.reset.len := rfl
@[simp] theorem State.hostReset_op0 : s.hostReset.op0 = State.reset.op0 := rfl
@[simp] theorem State.hostReset_op1 : s.hostReset.op1 = State.reset.op1 := rfl
@[simp] theorem State.hostReset_op2 : s.hostReset.op2 = State.reset.op2 := rfl
@[simp] theorem State.hostReset_op3 : s.hostReset.op3 = State.reset.op3 := rfl
@[simp] theorem State.hostReset_op4 : s.hostReset.op4 = State.reset.op4 := rfl
@[simp] theorem State.hostReset_op5 : s.hostReset.op5 = State.reset.op5 := rfl
@[simp] theorem State.hostReset_res0 : s.hostReset.res0 = State.reset.res0 := rfl
@[simp] theorem State.hostReset_res1 : s.hostReset.res1 = State.reset.res1 := rfl
@[simp] theorem State.hostReset_blk : s.hostReset.blk = State.reset.blk := rfl
@[simp] theorem State.hostReset_seq : s.hostReset.seq = State.reset.seq := rfl
@[simp] theorem State.hostReset_faultCause : s.hostReset.faultCause = State.reset.faultCause := rfl
@[simp] theorem State.hostReset_faultInfo : s.hostReset.faultInfo = State.reset.faultInfo := rfl
@[simp] theorem State.hostReset_pending : s.hostReset.pending = s.pending := rfl
@[simp] theorem State.hostReset_seen : s.hostReset.seen = s.seen := rfl

/-! ### writeReg: OP0 to OP5 only -/

@[simp] theorem writeReg_inbuf (r : Reg) (v : Word) : (writeReg s r v).inbuf = s.inbuf := by cases r <;> rfl
@[simp] theorem writeReg_len (r : Reg) (v : Word) : (writeReg s r v).len = s.len := by cases r <;> rfl
theorem writeReg_op0 (r : Reg) (v : Word) : (writeReg s r v).op0 = if r = .op0 then v else s.op0 := by cases r <;> rfl
theorem writeReg_op1 (r : Reg) (v : Word) : (writeReg s r v).op1 = if r = .op1 then v else s.op1 := by cases r <;> rfl
theorem writeReg_op2 (r : Reg) (v : Word) : (writeReg s r v).op2 = if r = .op2 then v else s.op2 := by cases r <;> rfl
theorem writeReg_op3 (r : Reg) (v : Word) : (writeReg s r v).op3 = if r = .op3 then v else s.op3 := by cases r <;> rfl
theorem writeReg_op4 (r : Reg) (v : Word) : (writeReg s r v).op4 = if r = .op4 then v else s.op4 := by cases r <;> rfl
theorem writeReg_op5 (r : Reg) (v : Word) : (writeReg s r v).op5 = if r = .op5 then v else s.op5 := by cases r <;> rfl
@[simp] theorem writeReg_res0 (r : Reg) (v : Word) : (writeReg s r v).res0 = s.res0 := by cases r <;> rfl
@[simp] theorem writeReg_res1 (r : Reg) (v : Word) : (writeReg s r v).res1 = s.res1 := by cases r <;> rfl
@[simp] theorem writeReg_blk (r : Reg) (v : Word) : (writeReg s r v).blk = s.blk := by cases r <;> rfl
@[simp] theorem writeReg_seq (r : Reg) (v : Word) : (writeReg s r v).seq = s.seq := by cases r <;> rfl
@[simp] theorem writeReg_faultCause (r : Reg) (v : Word) : (writeReg s r v).faultCause = s.faultCause := by cases r <;> rfl
@[simp] theorem writeReg_faultInfo (r : Reg) (v : Word) : (writeReg s r v).faultInfo = s.faultInfo := by cases r <;> rfl
@[simp] theorem writeReg_pending (r : Reg) (v : Word) : (writeReg s r v).pending = s.pending := by cases r <;> rfl
@[simp] theorem writeReg_seen (r : Reg) (v : Word) : (writeReg s r v).seen = s.seen := by cases r <;> rfl

/-! ### BlockRegs.setChunk -/

@[simp] theorem BlockRegs.setChunk_x (b : BlockRegs) (x y z : Word) (v w : Pair) (s : Word) : (b.setChunk x y z v w s).x = x := rfl
@[simp] theorem BlockRegs.setChunk_y (b : BlockRegs) (x y z : Word) (v w : Pair) (s : Word) : (b.setChunk x y z v w s).y = y := rfl
@[simp] theorem BlockRegs.setChunk_z (b : BlockRegs) (x y z : Word) (v w : Pair) (s : Word) : (b.setChunk x y z v w s).z = z := rfl
@[simp] theorem BlockRegs.setChunk_v (b : BlockRegs) (x y z : Word) (v w : Pair) (s : Word) : (b.setChunk x y z v w s).v = v := rfl
@[simp] theorem BlockRegs.setChunk_w (b : BlockRegs) (x y z : Word) (v w : Pair) (s : Word) : (b.setChunk x y z v w s).w = w := rfl
@[simp] theorem BlockRegs.setChunk_s (b : BlockRegs) (x y z : Word) (v w : Pair) (s : Word) : (b.setChunk x y z v w s).s = s := rfl
@[simp] theorem BlockRegs.setChunk_endOff (b : BlockRegs) (x y z : Word) (v w : Pair) (s : Word) : (b.setChunk x y z v w s).endOff = b.endOff := rfl
@[simp] theorem BlockRegs.setChunk_last64 (b : BlockRegs) (x y z : Word) (v w : Pair) (s : Word) : (b.setChunk x y z v w s).last64 = b.last64 := rfl
@[simp] theorem BlockRegs.setChunk_mul (b : BlockRegs) (x y z : Word) (v w : Pair) (s : Word) : (b.setChunk x y z v w s).mul = b.mul := rfl

/-! ### BlockRegs.setSpan -/

@[simp] theorem BlockRegs.setSpan_x (b : BlockRegs) (e l : Word) : (b.setSpan e l).x = b.x := rfl
@[simp] theorem BlockRegs.setSpan_y (b : BlockRegs) (e l : Word) : (b.setSpan e l).y = b.y := rfl
@[simp] theorem BlockRegs.setSpan_z (b : BlockRegs) (e l : Word) : (b.setSpan e l).z = b.z := rfl
@[simp] theorem BlockRegs.setSpan_v (b : BlockRegs) (e l : Word) : (b.setSpan e l).v = b.v := rfl
@[simp] theorem BlockRegs.setSpan_w (b : BlockRegs) (e l : Word) : (b.setSpan e l).w = b.w := rfl
@[simp] theorem BlockRegs.setSpan_s (b : BlockRegs) (e l : Word) : (b.setSpan e l).s = b.s := rfl
@[simp] theorem BlockRegs.setSpan_endOff (b : BlockRegs) (e l : Word) : (b.setSpan e l).endOff = e := rfl
@[simp] theorem BlockRegs.setSpan_last64 (b : BlockRegs) (e l : Word) : (b.setSpan e l).last64 = l := rfl
@[simp] theorem BlockRegs.setSpan_mul (b : BlockRegs) (e l : Word) : (b.setSpan e l).mul = b.mul := rfl

/-! ### BlockRegs.setMul -/

@[simp] theorem BlockRegs.setMul_x (b : BlockRegs) (m : Word) : (b.setMul m).x = b.x := rfl
@[simp] theorem BlockRegs.setMul_y (b : BlockRegs) (m : Word) : (b.setMul m).y = b.y := rfl
@[simp] theorem BlockRegs.setMul_z (b : BlockRegs) (m : Word) : (b.setMul m).z = b.z := rfl
@[simp] theorem BlockRegs.setMul_v (b : BlockRegs) (m : Word) : (b.setMul m).v = b.v := rfl
@[simp] theorem BlockRegs.setMul_w (b : BlockRegs) (m : Word) : (b.setMul m).w = b.w := rfl
@[simp] theorem BlockRegs.setMul_s (b : BlockRegs) (m : Word) : (b.setMul m).s = b.s := rfl
@[simp] theorem BlockRegs.setMul_endOff (b : BlockRegs) (m : Word) : (b.setMul m).endOff = b.endOff := rfl
@[simp] theorem BlockRegs.setMul_last64 (b : BlockRegs) (m : Word) : (b.setMul m).last64 = b.last64 := rfl
@[simp] theorem BlockRegs.setMul_mul (b : BlockRegs) (m : Word) : (b.setMul m).mul = m := rfl

end Sys2Proof.Machine
end

