-- ==== Sys2Proof/Laws/Hash.lean ====
section
/-! SUPPORT. What the hash functions answer: inside its band each is the closed form over the input and makes no read that fails
(42_length_bands.md rule R163, 43_block_loop.md rule R189). -/

namespace Sys2Proof.Machine

/-- The length as a word is LEN. -/
theorem ofNat_input_length (s : State) : BitVec.ofNat 64 s.input.length = s.len := by simp

/-- The band multiplier is the closed form's (42_length_bands.md rule R157). -/
theorem bandMul_eq (s : State) : bandMul s = Reference.lengthMul s.input.length := by
  rw [bandMul, Reference.lengthMul, State.input_length]
  congr 1

theorem hash8to16_ok {s : State} (h8 : 8 ≤ s.len.toNat) (h16 : s.len.toNat ≤ 16) :
    hash8to16 s = .ok (Reference.hash0to16 s.input) := by
  unfold hash8to16 Reference.hash0to16
  simp only [bandMul_eq, State.input_length]
  rw [fetch64_ok (by omega), fetch64_ok (by omega), if_neg (by omega), if_neg (by omega), if_neg (by omega)]
  simp [bind, Except.bind, rotr64_eq_rotateRight]

/-- A 32-bit value times 8 does not leave 64 bits (rule R152: no bit of `a` is lost). -/
theorem setWidth_shift3 (n : Word) (a : Half) :
    n + (a.setWidth 64 <<< 3) = BitVec.ofNat 64 (n.toNat + 8 * a.toNat) := by
  apply BitVec.eq_of_toNat_eq
  have := a.isLt
  simp [BitVec.toNat_add, BitVec.toNat_shiftLeft, Nat.shiftLeft_eq]
  omega

theorem hash4to7_ok {s : State} (h4 : 4 ≤ s.len.toNat) (h7 : s.len.toNat ≤ 7) :
    hash4to7 s = .ok (Reference.hash0to16 s.input) := by
  unfold hash4to7 Reference.hash0to16
  simp only [bandMul_eq, State.input_length]
  rw [fetch32_ok (by omega), fetch32_ok (by omega), if_neg (by omega), if_neg (by omega), if_pos (by omega)]
  simp [bind, Except.bind, setWidth_shift3]

theorem bytes_y (a b : Byte) : (a.setWidth 32 + (b.setWidth 32 <<< 8) : Half) = BitVec.ofNat 32 (a.toNat + 256 * b.toNat) := by
  apply BitVec.eq_of_toNat_eq
  have := a.isLt
  have := b.isLt
  simp [BitVec.toNat_add, BitVec.toNat_shiftLeft, Nat.shiftLeft_eq]
  omega

theorem bytes_z (n : Word) (c : Byte) :
    (n.setWidth 32 + (c.setWidth 32 <<< 2) : Half) = BitVec.ofNat 32 (n.toNat + 4 * c.toNat) := by
  apply BitVec.eq_of_toNat_eq
  have := c.isLt
  simp [BitVec.toNat_add, BitVec.toNat_shiftLeft, Nat.shiftLeft_eq]
  omega

theorem hash1to3_ok {s : State} (h1 : 1 ≤ s.len.toNat) (h3 : s.len.toNat ≤ 3) :
    hash1to3 s = .ok (Reference.hash0to16 s.input) := by
  unfold hash1to3 Reference.hash0to16
  simp only [State.input_length]
  rw [fetch8_ok (by omega), fetch8_ok (by omega), fetch8_ok (by omega), if_neg (by omega), if_pos (by omega)]
  simp only [bind, Except.bind, bytes_y, bytes_z]

/-- Band A (rules R152 and R163). -/
theorem hash0to16_ok {s : State} (h : s.len.toNat ≤ 16) : hash0to16 s = .ok (Reference.hash0to16 s.input) := by
  unfold hash0to16
  simp only []
  split
  · exact hash8to16_ok (by omega) h
  · split
    · exact hash4to7_ok (by omega) (by omega)
    · split
      · exact hash1to3_ok (by omega) (by omega)
      · simp [Reference.hash0to16, show s.len.toNat = 0 by omega]

/-- Band B (rules R155 and R163). -/
theorem hash17to32_ok {s : State} (h17 : 17 ≤ s.len.toNat) (h32 : s.len.toNat ≤ 32) :
    hash17to32 s = .ok (Reference.hash17to32 s.input) := by
  unfold hash17to32 Reference.hash17to32
  simp only [bandMul_eq, State.input_length]
  rw [fetch64_ok (by omega), fetch64_ok (by omega), fetch64_ok (by omega), fetch64_ok (by omega)]
  simp [bind, Except.bind, rotr64_eq_rotateRight]

/-- Band C (rules R156 and R163). -/
theorem hash33to64_ok {s : State} (h33 : 33 ≤ s.len.toNat) (h64 : s.len.toNat ≤ 64) :
    hash33to64 s = .ok (Reference.hash33to64 s.input) := by
  unfold hash33to64 Reference.hash33to64
  simp only [bandMul_eq, State.input_length]
  rw [fetch64_ok (by omega), fetch64_ok (by omega), fetch64_ok (by omega), fetch64_ok (by omega), fetch64_ok (by omega),
    fetch64_ok (by omega), fetch64_ok (by omega), fetch64_ok (by omega)]
  simp [bind, Except.bind, rotr64_eq_rotateRight]

/-! ### Band D -/

/-- The final window starts at LEN - 64 (10_state.md rule R30). -/
theorem finalWindow_eq (n : Nat) (h : 65 ≤ n) : finalWindow n = n - 64 := by
  unfold finalWindow
  omega

/-- `block_init` (43_block_loop.md rules R180 and R189). -/
theorem blockInit_ok {s : State} (h : 65 ≤ s.len.toNat) : blockInit s = .ok (Reference.start s.input s.blk) := by
  unfold blockInit Reference.start
  rw [fetch64_ok (by omega)]
  simp only [bind, Except.bind, State.input_length, finalWindow_eq _ h, loopEnd]
  rfl

/-- A multiplication by 1 changes nothing: the loop step is the shared round with factor 1. -/
theorem blockStep_ok {s : State} {b : BlockRegs} (h : b.s.toNat + 64 ≤ s.len.toNat) :
    blockStep s b = .ok (Reference.step s.input b) := by
  unfold blockStep Reference.step Reference.round
  simp only []
  rw [fetch64_ok (by omega), fetch64_ok (by omega), fetch64_ok (by omega), fetch64_ok (by omega)]
  simp only [bind, Except.bind]
  rw [weakMixMem_ok _ _ (by omega), weakMixMem_ok _ _ (by omega)]
  simp [rotr64_eq_rotateRight]

/-- `finalize` over a window inside the input (rules R183 and R189). -/
theorem finalize_ok {s : State} {b : BlockRegs} (h : b.last64.toNat + 64 ≤ s.len.toNat) :
    finalize s b = .ok (Reference.last s.input b, Reference.lastHash (Reference.last s.input b)) := by
  have hm : k1 + ((b.z &&& 0xff) <<< 1) = Reference.lastMul b := by
    rw [Reference.lastMul, BitVec.shiftLeft_eq_mul_twoPow]
    congr 1
    rw [BitVec.mul_comm]
    rfl
  unfold finalize
  simp only [hm]
  rw [fetch64_ok (by omega), fetch64_ok (by omega), fetch64_ok (by omega), fetch64_ok (by omega)]
  simp only [bind, Except.bind]
  rw [weakMixMem_ok _ _ (by omega), weakMixMem_ok _ _ (by omega)]
  simp [Reference.last, Reference.round, Reference.lastHash, rotr64_eq_rotateRight]

/-! ### The loop -/

@[simp] theorem step_s (b : List Byte) (r : BlockRegs) : (Reference.step b r).s = r.s + 64 := by
  rw [Reference.step, Reference.round, BlockRegs.setChunk_s]
@[simp] theorem step_endOff (b : List Byte) (r : BlockRegs) : (Reference.step b r).endOff = r.endOff := by
  rw [Reference.step, Reference.round, BlockRegs.setChunk_endOff]
@[simp] theorem step_last64 (b : List Byte) (r : BlockRegs) : (Reference.step b r).last64 = r.last64 := by
  rw [Reference.step, Reference.round, BlockRegs.setChunk_last64]
@[simp] theorem step_mul (b : List Byte) (r : BlockRegs) : (Reference.step b r).mul = r.mul := by
  rw [Reference.step, Reference.round, BlockRegs.setChunk_mul]
@[simp] theorem afterSteps_zero (b : List Byte) (r : BlockRegs) : Reference.afterSteps b r 0 = Reference.start b r := rfl
@[simp] theorem afterSteps_succ (b : List Byte) (r : BlockRegs) (k : Nat) :
    Reference.afterSteps b r (k + 1) = Reference.step b (Reference.afterSteps b r k) := rfl

/-- A loop step carries MUL along and reads it nowhere. -/
theorem step_setMul (b : List Byte) (r : BlockRegs) (m : Word) :
    Reference.step b { r with mul := m } = { Reference.step b r with mul := m } := rfl

/-- The final pass replaces MUL and reads it nowhere. -/
theorem last_setMul (b : List Byte) (r : BlockRegs) (m : Word) : Reference.last b { r with mul := m } = Reference.last b r := rfl

/-- What stays and what moves while the loop runs: after `k` steps S is 64*k, END and LAST64 are those of `block_init`. -/
theorem afterSteps_position (b : List Byte) (r : BlockRegs) (k : Nat) (hb : b.length < 2 ^ 64) (hk : k ≤ (b.length - 1) / 64) :
    (Reference.afterSteps b r k).s.toNat = 64 * k ∧
      (Reference.afterSteps b r k).endOff = BitVec.ofNat 64 ((b.length - 1) / 64 * 64) ∧
      (Reference.afterSteps b r k).last64 = BitVec.ofNat 64 (b.length - 64) ∧ (Reference.afterSteps b r k).mul = r.mul := by
  induction k with
  | zero => simp [Reference.start]
  | succ k ih =>
    obtain ⟨h1, h2, h3, h4⟩ := ih (by omega)
    rw [afterSteps_succ, step_s, step_endOff, step_last64, step_mul]
    refine ⟨?_, h2, h3, h4⟩
    rw [BitVec.toNat_add, h1]
    simp
    omega

/-- The loop of HASH64 leaves by its own test, after the count of rule R186 (43_block_loop.md). -/
theorem blockLoop_ok {s : State} (hl : 65 ≤ s.len.toNat) (fuel k : Nat) (hk : k + fuel = (s.len.toNat - 1) / 64) :
    blockLoop s fuel (Reference.afterSteps s.input s.blk k) =
      .ok (Reference.afterSteps s.input s.blk ((s.len.toNat - 1) / 64)) := by
  induction fuel generalizing k with
  | zero => simp [blockLoop, ← hk]
  | succ fuel ih =>
    have hlen : s.input.length < 2 ^ 64 := by simpa using s.len.isLt
    obtain ⟨hs, -, -, -⟩ := afterSteps_position s.input s.blk k hlen (by simp; omega)
    obtain ⟨hs', he, -, -⟩ := afterSteps_position s.input s.blk (k + 1) hlen (by simp; omega)
    have hstep : blockStep s (Reference.afterSteps s.input s.blk k) = .ok (Reference.afterSteps s.input s.blk (k + 1)) :=
      blockStep_ok (by rw [hs]; omega)
    simp only [blockLoop, hstep, bind, Except.bind]
    split
    · rename_i heq
      have := congrArg BitVec.toNat heq
      rw [hs', he] at this
      simp at this
      rw [show k + 1 = (s.len.toNat - 1) / 64 by omega]
    · exact ih (k + 1) (by omega)

/-- Band D of `hash64` (45_entry_points.md rules R240 and R245). -/
theorem hashLong_ok {s : State} (h : 65 ≤ s.len.toNat) :
    hashLong s = .ok (Reference.longRegs s.input s.blk, Reference.lastHash (Reference.longRegs s.input s.blk)) := by
  have hlen : s.input.length < 2 ^ 64 := by simpa using s.len.isLt
  obtain ⟨-, -, hl, -⟩ := afterSteps_position s.input s.blk ((s.len.toNat - 1) / 64) hlen (by simp)
  have hloop := blockLoop_ok h ((s.len.toNat - 1) / 64) 0 (by omega)
  unfold hashLong
  rw [blockInit_ok h]
  simp only [bind, Except.bind]
  rw [show Reference.start s.input s.blk = Reference.afterSteps s.input s.blk 0 from rfl, hloop]
  simp only []
  rw [finalize_ok (by rw [hl]; simp; omega)]
  simp [Reference.longRegs]

/-! ### `hash64` depends on no register -/

/-- The start of band D keeps only MUL. -/
theorem afterSteps_mul (b : List Byte) (r q : BlockRegs) (k : Nat) :
    Reference.afterSteps b r k = { Reference.afterSteps b q k with mul := r.mul } := by
  induction k with
  | zero => rfl
  | succ k ih => rw [afterSteps_succ, afterSteps_succ, ih, step_setMul]

/-- The registers band D leaves depend on the input alone (rule R247). -/
theorem longRegs_indep (b : List Byte) (r q : BlockRegs) : Reference.longRegs b r = Reference.longRegs b q := by
  unfold Reference.longRegs
  rw [afterSteps_mul b r q, last_setMul]

/-- `hash64` over the whole input, with the block registers it leaves (rules R240 and R242). -/
theorem hash64_ok (s : State) :
    hash64 s = .ok (if s.len.toNat ≤ 64 then s.blk else Reference.longRegs s.input s.blk, Reference.hash64 s.input) := by
  unfold hash64 band Reference.hash64
  simp only [State.input_length]
  by_cases h16 : s.len.toNat ≤ 16
  · simp [h16, show s.len.toNat ≤ 32 by omega, show s.len.toNat ≤ 64 by omega, hash0to16_ok h16, Except.map]
  · by_cases h32 : s.len.toNat ≤ 32
    · simp [h16, h32, show s.len.toNat ≤ 64 by omega, hash17to32_ok (by omega) h32, Except.map]
    · by_cases h64 : s.len.toNat ≤ 64
      · simp [h16, h32, h64, hash33to64_ok (by omega) h64, Except.map]
      · simp only [h16, h32, h64, if_false]
        rw [hashLong_ok (by omega), longRegs_indep s.input s.blk Reference.noRegs]

end Sys2Proof.Machine
end

