-- ==== Sys2Proof/Laws/Ops.lean ====
section
/-! SUPPORT. What the shared operations do: completing a command, taking a fault, the register map, issuing a word, and the host's
actions. -/

namespace Sys2Proof.Machine

/-! ### Completing a command -/

@[simp] theorem complete_ok (s t : State) : complete s (.ok t) = .next t := rfl
@[simp] theorem complete_error (s : State) (c : Trap) : complete s (.error c) = .next (s.raiseFault c) := rfl

/-- Everything the end of a command does (60_exceptions.md rule R262): its writes, or the fault alone. -/
theorem complete_cases (s : State) (r : Except Trap State) :
    (∃ t, r = .ok t ∧ complete s r = .next t) ∨ (∃ c, r = .error c ∧ complete s r = .next (s.raiseFault c)) := by
  cases r with
  | ok t => exact .inl ⟨t, rfl, rfl⟩
  | error c => exact .inr ⟨c, rfl, rfl⟩

/-! ### Faults -/

/-- FAULT_CAUSE of a cause: its low byte is CODE (60_exceptions.md rule R263). -/
theorem raiseFault_causeCode (s : State) (c : Trap) : (s.raiseFault c).causeCode = c.code := by
  apply BitVec.eq_of_getLsbD_eq
  intro i hi
  have h64 : i < 64 := by omega
  simp only [State.causeCode, State.raiseFault_faultCause, BitVec.getLsbD_extractLsb', BitVec.getLsbD_setWidth,
    BitVec.getLsbD_append, Nat.zero_add, hi, h64, decide_true, Bool.true_and, if_true]

/-- A fault halts the block (rule R263). -/
@[simp] theorem raiseFault_halted (s : State) (c : Trap) : (s.raiseFault c).halted = true := by
  rw [State.halted, raiseFault_causeCode]
  cases c <;> rfl

/-- Whether a block is halted depends on FAULT_CAUSE alone (10_state.md rule R35). -/
theorem halted_congr {s t : State} (h : t.faultCause = s.faultCause) : t.halted = s.halted := by
  simp [State.halted, State.causeCode, h]

/-! ### The block commands -/

/-- BLOCK_STEP outside LOOP (43_block_loop.md rule R185). -/
theorem execBlockStep_order {s : State} (h : s.seq ≠ .loop) :
    exec .blockStep s = .next (s.raiseFault (.sequence 0x00000031)) := by
  show execBlockStep s = _
  rw [execBlockStep, if_pos h, complete_error]

/-- BLOCK_STEP in LOOP, where the chunk's reads succeed (rule R185). The registers stay a variable here: a proof that rewrites S
inside the expression of a whole loop step makes the kernel evaluate that step. -/
theorem execBlockStep_loop {s : State} {b : BlockRegs} (h : s.seq = .loop) (hb : blockStep s s.blk = .ok b)
    (hs : b.s = s.blk.s + 64) :
    exec .blockStep s = .next { s with blk := b, seq := if s.blk.s + 64 = s.blk.endOff then .tail else .loop } := by
  rw [← hs]
  show execBlockStep s = _
  rw [execBlockStep, if_neg (by simp [h]), hb]
  rfl

/-- FINALIZE outside TAIL (43_block_loop.md rule R187). -/
theorem execFinalize_order {s : State} (h : s.seq ≠ .tail) :
    exec .finalize s = .next (s.raiseFault (.sequence 0x00000032)) := by
  show execFinalize s = _
  rw [execFinalize, if_pos h, complete_error]

/-- FINALIZE in TAIL, where the window's reads succeed (rule R187). -/
theorem execFinalize_tail {s : State} {r : BlockRegs × Word} (h : s.seq = .tail) (hb : finalize s s.blk = .ok r) :
    exec .finalize s = .next { s with blk := r.1, res0 := r.2, seq := .idle } := by
  show execFinalize s = _
  rw [execFinalize, if_neg (by simp [h]), hb]
  rfl

/-! ### Issuing a word -/

theorem issue_halted {s : State} (w : BitVec 32) (h : s.halted = true) : issue w s = .next s := if_pos h

theorem issue_legal {s : State} {w : BitVec 32} {i : Instr} (h : s.halted = false) (hd : decode w = .ok i) :
    issue w s = exec i s := by
  simp [issue, h, hd]

theorem issue_illegal {s : State} {w : BitVec 32} {e : Illegal} (h : s.halted = false) (hd : decode w = .error e) :
    issue w s = .next (s.raiseFault (.illegalCmd w)) := by
  simp [issue, h, hd]

/-! ### The host's actions -/

/-- A load that fits (10_state.md rule R44). -/
theorem hostLoad_fits {maxLen : Nat} {b : List Byte} (s : State) (h : b.length ≤ maxLen) (h' : b.length < 2 ^ 64) :
    hostLoad maxLen b s = .next ((s.setInput (Memory.ofBytes b) (BitVec.ofNat 64 b.length)).setSeq .idle) := by
  rw [hostLoad, if_neg (by omega), if_neg (by omega)]

/-- Everything a load that answers a next state did. -/
theorem hostLoad_next {maxLen : Nat} {b : List Byte} {s t : State} (h : hostLoad maxLen b s = .next t) :
    b.length ≤ maxLen ∧ b.length < 2 ^ 64 ∧
      t = (s.setInput (Memory.ofBytes b) (BitVec.ofNat 64 b.length)).setSeq .idle := by
  unfold hostLoad at h
  split at h
  · cases h
  · split at h
    · cases h
    · exact ⟨by omega, by omega, by injection h with h; exact h.symm⟩

/-- The number of a register is assigned to it (10_state.md rule R37). -/
theorem regOfNumber_regNumber (r : Reg) : regOfNumber (regNumber r) = some r := by cases r <;> rfl

/-- Everything a host action that answers a next state did (10_state.md rule R43). -/
theorem perform_next {a : HostAction} {s t : State} (h : perform a s = .next t) :
    (a = .reset ∧ t = s.hostReset) ∨ (∃ b, a = .load b ∧ hostLoad Config.maxLen b s = .next t) ∨
      (∃ w, issue w s = .next t) ∨ (∃ num v r, a = .write num v ∧ t = writeReg s r v) ∨
      (∃ num v, a = .write num v ∧ t = s) ∨ (∃ num, a = .read num ∧ t = hostRead num s) := by
  cases a with
  | reset => exact .inl ⟨rfl, by injection h with h; exact h.symm⟩
  | load b => exact .inr (.inl ⟨b, rfl, h⟩)
  | issue w => exact .inr (.inr (.inl ⟨w, h⟩))
  | read num => exact .inr (.inr (.inr (.inr (.inr ⟨num, rfl, by injection h with h; exact h.symm⟩))))
  | write num v =>
    simp only [perform, hostWrite] at h
    split at h
    · exact .inr (.inr (.inl ⟨_, h⟩))
    · rename_i r _ _
      exact .inr (.inr (.inr (.inl ⟨num, v, r, rfl, by injection h with h; exact h.symm⟩)))
    · exact .inr (.inr (.inr (.inr (.inl ⟨num, v, rfl, by injection h with h; exact h.symm⟩))))

end Sys2Proof.Machine
end

