-- ==== Sys2Proof/Laws/Commands.lean ====
section
/-! SUPPORT. Everything a command can do, said once: `exec_cases`. -/

namespace Sys2Proof.Machine

/-! ### The reads of the block commands -/

/-- The only failure is that of an 8-byte read. -/
def FailsOnReads {α : Type} (r : Except Trap α) : Prop := ∀ c, r = .error c → ∃ off, c = .oobRead off 8

theorem failsOnReads_ok {α : Type} (a : α) : FailsOnReads (.ok a) := by
  intro c h
  cases h

theorem failsOnReads_bind {α β : Type} {r : Except Trap α} {f : α → Except Trap β} (hr : FailsOnReads r)
    (hf : ∀ a, FailsOnReads (f a)) : FailsOnReads (r >>= f) := by
  cases r with
  | ok a => exact hf a
  | error c => exact fun c' h => hr c' (by injection h with h; rw [h])

theorem failsOnReads_fetch64 (s : State) (off : Nat) : FailsOnReads (fetch64 s off) := by
  intro c h
  unfold fetch64 memRead at h
  split at h
  · exact ⟨off, by injection h with h; exact h.symm⟩
  · cases h

theorem failsOnReads_weakMixMem (s : State) (off : Nat) (a b : Word) : FailsOnReads (weakMixMem s off a b) := by
  unfold weakMixMem
  repeat' first
    | exact failsOnReads_fetch64 _ _
    | exact failsOnReads_ok _
    | refine failsOnReads_bind ?_ (fun _ => ?_)

theorem failsOnReads_blockStep (s : State) (b : BlockRegs) : FailsOnReads (blockStep s b) := by
  unfold blockStep
  repeat' first
    | exact failsOnReads_fetch64 _ _
    | exact failsOnReads_weakMixMem _ _ _ _
    | exact failsOnReads_ok _
    | refine failsOnReads_bind ?_ (fun _ => ?_)

theorem failsOnReads_finalize (s : State) (b : BlockRegs) : FailsOnReads (finalize s b) := by
  unfold finalize
  repeat' first
    | exact failsOnReads_fetch64 _ _
    | exact failsOnReads_weakMixMem _ _ _ _
    | exact failsOnReads_ok _
    | refine failsOnReads_bind ?_ (fun _ => ?_)

/-- A loop step moves S by a chunk and keeps END, LAST64 and MUL (10_state.md rules R28 to R31). -/
theorem blockStep_keeps {s : State} {b q : BlockRegs} (h : blockStep s b = .ok q) :
    q.s = b.s + 64 ∧ q.endOff = b.endOff ∧ q.last64 = b.last64 ∧ q.mul = b.mul := by
  unfold blockStep at h
  simp only [bind, Except.bind] at h
  repeat' split at h
  all_goals first
    | (cases h; done)
    | (injection h with h; subst h; exact ⟨BlockRegs.setChunk_s .., BlockRegs.setChunk_endOff ..,
        BlockRegs.setChunk_last64 .., BlockRegs.setChunk_mul ..⟩)

/-- The final pass keeps END and LAST64 (10_state.md rules R29 to R31). -/
theorem finalize_keeps {s : State} {b : BlockRegs} {r : BlockRegs × Word} (h : finalize s b = .ok r) :
    r.1.endOff = b.endOff ∧ r.1.last64 = b.last64 := by
  unfold finalize at h
  simp only [bind, Except.bind] at h
  repeat' split at h
  all_goals first
    | (cases h; done)
    | (injection h with h; subst h; simp)

/-! ### One inversion lemma -/

/-- What the command `i` may write, where it takes no fault. -/
def Writes (i : Instr) (s t : State) : Prop :=
  match i with
  | .fetch8 | .fetch32 | .fetch64 | .rotr64 | .rotr32 | .shiftmix | .combine16 | .mur | .mix64to32 =>
    ∃ v, t = s.setRes0 v
  | .weakmix | .weakmixMem => ∃ p, t = s.setResPair p
  | .hash0to16 => s.len.toNat ≤ 16 ∧ ∃ v, t = s.setRes0 v
  | .hash17to32 => (17 ≤ s.len.toNat ∧ s.len.toNat ≤ 32) ∧ ∃ v, t = s.setRes0 v
  | .hash33to64 => (33 ≤ s.len.toNat ∧ s.len.toNat ≤ 64) ∧ ∃ v, t = s.setRes0 v
  | .blockInit => 65 ≤ s.len.toNat ∧ t = (s.setBlk (Reference.start s.input s.blk)).setSeq .loop
  | .blockStep =>
    s.seq = .loop ∧ ∃ b, blockStep s s.blk = .ok b ∧
      t = { s with blk := b, seq := if s.blk.s + 64 = s.blk.endOff then .tail else .loop }
  | .finalize => s.seq = .tail ∧ ∃ r, finalize s s.blk = .ok r ∧ t = { s with blk := r.1, res0 := r.2, seq := .idle }
  | .hash64 | .hash32 =>
    ∃ b v0 v1, t = { s with blk := b, res0 := v0, res1 := v1, seq := .idle } ∧ (s.len.toNat ≤ 64 → b = s.blk) ∧
      (i = .hash64 → v1 = s.res1)

/-- The fault the command `i` may take. -/
def Faults (i : Instr) (s : State) (c : Trap) : Prop :=
  match i with
  | .fetch8 => c = .oobRead s.op0.toNat 1
  | .fetch32 => c = .oobRead s.op0.toNat 4
  | .fetch64 => c = .oobRead s.op0.toNat 8
  | .weakmixMem => ∃ off, c = .oobRead off 8
  | .hash0to16 => 16 < s.len.toNat ∧ c = .bandLen s.len
  | .hash17to32 => (s.len.toNat < 17 ∨ 32 < s.len.toNat) ∧ c = .bandLen s.len
  | .hash33to64 => (s.len.toNat < 33 ∨ 64 < s.len.toNat) ∧ c = .bandLen s.len
  | .blockInit => s.len.toNat < 65 ∧ c = .bandLen s.len
  | .blockStep =>
    (s.seq ≠ .loop ∧ c = .sequence 0x00000031) ∨
      (s.seq = .loop ∧ blockStep s s.blk = .error c ∧ ∃ off, c = .oobRead off 8)
  | .finalize =>
    (s.seq ≠ .tail ∧ c = .sequence 0x00000032) ∨
      (s.seq = .tail ∧ finalize s s.blk = .error c ∧ ∃ off, c = .oobRead off 8)
  | .rotr64 | .rotr32 | .shiftmix | .combine16 | .weakmix | .mur | .mix64to32 | .hash64 | .hash32 => False

theorem complete_bind {α : Type} {s : State} (r : Except Trap α) (f : α → State) :
    (∃ a, r = .ok a ∧ complete s (do let a ← r; .ok (f a)) = .next (f a)) ∨
      (∃ c, r = .error c ∧ complete s (do let a ← r; .ok (f a)) = .next (s.raiseFault c)) := by
  cases r with
  | ok a => exact .inl ⟨a, rfl, rfl⟩
  | error c => exact .inr ⟨c, rfl, rfl⟩

/-- A read that fails names its offset and width (20_memory.md rule R61). -/
theorem memRead_fails {w : Nat} {s : State} {off n : Nat} {c : Trap} (h : memRead w s off n = .error c) : c = .oobRead off n := by
  unfold memRead at h
  split at h
  · injection h with h; exact h.symm
  · cases h

/-- Everything a command can do: it writes what `Writes` says, or takes a fault that `Faults` says. -/
theorem exec_cases (i : Instr) (s : State) :
    (∃ t, exec i s = .next t ∧ Writes i s t) ∨ (∃ c, exec i s = .next (s.raiseFault c) ∧ Faults i s c) := by
  cases i with
  | fetch8 =>
    obtain ⟨a, -, h⟩ | ⟨c, hc, h⟩ := complete_bind (s := s) (fetch8 s (opOffset s)) (fun b => s.setRes0 (b.setWidth 64))
    · exact .inl ⟨_, h, _, rfl⟩
    · exact .inr ⟨_, h, memRead_fails hc⟩
  | fetch32 =>
    obtain ⟨a, -, h⟩ | ⟨c, hc, h⟩ := complete_bind (s := s) (fetch32 s (opOffset s)) (fun b => s.setRes0Half b)
    · exact .inl ⟨_, h, _, rfl⟩
    · exact .inr ⟨_, h, memRead_fails hc⟩
  | fetch64 =>
    obtain ⟨a, -, h⟩ | ⟨c, hc, h⟩ := complete_bind (s := s) (fetch64 s (opOffset s)) (fun b => s.setRes0 b)
    · exact .inl ⟨_, h, _, rfl⟩
    · exact .inr ⟨_, h, memRead_fails hc⟩
  | rotr64 => exact .inl ⟨_, rfl, _, rfl⟩
  | rotr32 => exact .inl ⟨_, rfl, _, rfl⟩
  | shiftmix => exact .inl ⟨_, rfl, _, rfl⟩
  | combine16 => exact .inl ⟨_, rfl, _, rfl⟩
  | weakmix => exact .inl ⟨_, rfl, _, rfl⟩
  | weakmixMem =>
    obtain ⟨a, -, h⟩ | ⟨c, hc, h⟩ :=
      complete_bind (s := s) (weakMixMem s (opOffset s) s.op1 s.op2) (fun p => s.setResPair p)
    · exact .inl ⟨_, h, _, rfl⟩
    · exact .inr ⟨_, h, failsOnReads_weakMixMem _ _ _ _ _ hc⟩
  | hash0to16 =>
    by_cases h : s.len.toNat ≤ 16
    · refine .inl ⟨s.setRes0 (Reference.hash0to16 s.input), ?_, h, _, rfl⟩
      show execHash0to16 s = _
      rw [execHash0to16, if_neg (by omega), hash0to16_ok h]; rfl
    · exact .inr ⟨.bandLen s.len, congrArg (complete s) (if_pos (by omega)), by omega, rfl⟩
  | hash17to32 =>
    by_cases h : 17 ≤ s.len.toNat ∧ s.len.toNat ≤ 32
    · refine .inl ⟨s.setRes0 (Reference.hash17to32 s.input), ?_, h, _, rfl⟩
      show execHash17to32 s = _
      rw [execHash17to32, if_neg (by omega), hash17to32_ok h.1 h.2]; rfl
    · exact .inr ⟨.bandLen s.len, congrArg (complete s) (if_pos (by omega)), by omega, rfl⟩
  | hash33to64 =>
    by_cases h : 33 ≤ s.len.toNat ∧ s.len.toNat ≤ 64
    · refine .inl ⟨s.setRes0 (Reference.hash33to64 s.input), ?_, h, _, rfl⟩
      show execHash33to64 s = _
      rw [execHash33to64, if_neg (by omega), hash33to64_ok h.1 h.2]; rfl
    · exact .inr ⟨.bandLen s.len, congrArg (complete s) (if_pos (by omega)), by omega, rfl⟩
  | blockInit =>
    by_cases h : 65 ≤ s.len.toNat
    · refine .inl ⟨_, ?_, h, rfl⟩
      show execBlockInit s = _
      rw [execBlockInit, if_neg (by omega), blockInit_ok h]; rfl
    · exact .inr ⟨.bandLen s.len, congrArg (complete s) (if_pos (by omega)), by omega, rfl⟩
  | blockStep =>
    by_cases hq : s.seq = .loop
    · cases hb : blockStep s s.blk with
      | ok b => exact .inl ⟨_, execBlockStep_loop hq hb (blockStep_keeps hb).1, hq, b, hb, rfl⟩
      | error c =>
        refine .inr ⟨c, ?_, .inr ⟨hq, hb, failsOnReads_blockStep _ _ _ hb⟩⟩
        show execBlockStep s = _
        rw [execBlockStep, if_neg (by simp [hq]), hb]; rfl
    · exact .inr ⟨_, execBlockStep_order hq, .inl ⟨hq, rfl⟩⟩
  | finalize =>
    by_cases hq : s.seq = .tail
    · cases hb : finalize s s.blk with
      | ok r => exact .inl ⟨_, execFinalize_tail hq hb, hq, r, hb, rfl⟩
      | error c =>
        refine .inr ⟨c, ?_, .inr ⟨hq, hb, failsOnReads_finalize _ _ _ hb⟩⟩
        show execFinalize s = _
        rw [execFinalize, if_neg (by simp [hq]), hb]; rfl
    · exact .inr ⟨_, execFinalize_order hq, .inl ⟨hq, rfl⟩⟩
  | mur => exact .inl ⟨_, rfl, _, rfl⟩
  | mix64to32 => exact .inl ⟨_, rfl, _, rfl⟩
  | hash64 =>
    refine .inl ⟨((s.setBlk (if s.len.toNat ≤ 64 then s.blk else Reference.longRegs s.input s.blk)).setRes0
      (Reference.hash64 s.input)).setSeq .idle, ?_, _, _, s.res1, rfl, fun h => if_pos h, fun _ => rfl⟩
    show execHash64 s = _
    rw [execHash64, hash64_ok]
    rfl
  | hash32 =>
    refine .inl ⟨(((s.setBlk (if s.len.toNat ≤ 64 then s.blk else Reference.longRegs s.input s.blk)).setRes1
      (Reference.hash64 s.input)).setRes0Half (mix64to32 (Reference.hash64 s.input))).setSeq .idle, ?_, _, _, _, rfl,
      fun h => if_pos h, fun h => by cases h⟩
    show execHash32 s = _
    rw [execHash32, hash64_ok]
    rfl

/-- The same, of a state the command answers. -/
theorem exec_next {i : Instr} {s t : State} (h : exec i s = .next t) :
    Writes i s t ∨ ∃ c, t = s.raiseFault c ∧ Faults i s c := by
  obtain ⟨t', h', hw⟩ | ⟨c, h', hf⟩ := exec_cases i s <;> rw [h'] at h <;> injection h with h <;> subst h
  · exact .inl hw
  · exact .inr ⟨c, rfl, hf⟩

/-- A command that takes no fault keeps the input, the operands, the fault registers and the host's side of the run. -/
theorem writes_keeps {i : Instr} {s t : State} (h : Writes i s t) :
    Reference.keepsInputs s t ∧ t.inbuf = s.inbuf ∧ Reference.keepsFault s t := by
  cases i <;> simp only [Writes] at h
  all_goals first
    | obtain ⟨_, rfl⟩ := h
    | obtain ⟨_, _, rfl⟩ := h
    | obtain ⟨_, _, _, rfl⟩ := h
    | obtain ⟨_, _, _, rfl, _⟩ := h
  all_goals exact ⟨⟨fun _ => rfl, rfl, rfl, rfl, rfl, rfl, rfl, rfl, rfl, rfl⟩, rfl, rfl, rfl⟩

/-- Everything an ISSUE can do (60_exceptions.md rule R266): nothing, a command, or ILLEGAL_CMD. -/
theorem issue_next {w : BitVec 32} {s t : State} (h : issue w s = .next t) :
    t = s ∨ (∃ i, exec i s = .next t) ∨ t = s.raiseFault (.illegalCmd w) := by
  unfold issue at h
  split at h
  · exact .inl (by injection h with h; exact h.symm)
  · split at h
    · exact .inr (.inr (by injection h with h; exact h.symm))
    · exact .inr (.inl ⟨_, h⟩)

end Sys2Proof.Machine
end

