-- ==== Sys2Proof/Laws/PerInstr.lean ====
section
/-! SUPPORT. One lemma per command: its word decodes to it (30_encoding.md rules R83 and R84). -/

namespace Sys2Proof.Laws.RoundTrip

/-- The word of a command decodes to it. -/
def Statement (i : Instr) : Prop := decode (encode i) = .ok i

theorem fetch8 : Statement .fetch8 := rfl
theorem fetch32 : Statement .fetch32 := rfl
theorem fetch64 : Statement .fetch64 := rfl
theorem rotr64 : Statement .rotr64 := rfl
theorem rotr32 : Statement .rotr32 := rfl
theorem shiftmix : Statement .shiftmix := rfl
theorem combine16 : Statement .combine16 := rfl
theorem weakmix : Statement .weakmix := rfl
theorem weakmixMem : Statement .weakmixMem := rfl
theorem hash0to16 : Statement .hash0to16 := rfl
theorem hash17to32 : Statement .hash17to32 := rfl
theorem hash33to64 : Statement .hash33to64 := rfl
theorem blockInit : Statement .blockInit := rfl
theorem blockStep : Statement .blockStep := rfl
theorem finalize : Statement .finalize := rfl
theorem mur : Statement .mur := rfl
theorem mix64to32 : Statement .mix64to32 := rfl
theorem hash64 : Statement .hash64 := rfl
theorem hash32 : Statement .hash32 := rfl

end Sys2Proof.Laws.RoundTrip
end

