-- ==== Sys2Proof/Tests/Slice0.lean ====
section
/-! SUPPORT. Tests of single steps, their values taken from 95_test_vectors.md, the words of every command written out from the
opcode map of 30_encoding.md, a refused term for each check of WellFormed, and a witness for the hypotheses of each statement. -/

namespace Sys2Proof.Tests

open Sys2Proof.Machine

-- The tests are checked one after the other: each waits for the kernel, and together they would hold a thread each.
set_option Elab.async false

/-- `P(n)` of 95_test_vectors.md: the bytes 0, 1, 2 ... -/
def rising (n : Nat) : List Byte := (List.range n).map (BitVec.ofNat 8)

/-- The reset state with an input loaded. -/
def loaded (b : List Byte) : State := State.reset.setInput (Memory.ofBytes b) (BitVec.ofNat 64 b.length)

/-- The state an outcome carries, or the reset state. -/
def stateOf (o : Host.Outcome State Fault Refusal) : State :=
  match o with
  | .next t => t
  | .fault _ => State.reset
  | .refused _ => State.reset

/-- The state after one command. -/
def after (i : Instr) (s : State) : State := stateOf (exec i s)

/-- Every command answers a next state. -/
theorem exec_after (i : Instr) (s : State) : exec i s = .next (after i s) := by
  obtain ⟨t, h, -⟩ | ⟨c, h, -⟩ := exec_cases i s <;> rw [after, h] <;> rfl

/-- A block that has taken ILLEGAL_CMD. -/
def haltedState : State := { loaded (rising 4) with faultCause := 1 }

/-- P(129) after BLOCK_INIT: SEQ is LOOP, two steps are due. -/
def loopState : State := after .blockInit (loaded (rising 129))

/-- P(65) after BLOCK_INIT: SEQ is LOOP, the last step is due. -/
def lastLoopState : State := after .blockInit (loaded (rising 65))

/-- P(65) after its one BLOCK_STEP: SEQ is TAIL. -/
def tailState : State := after .blockStep lastLoopState

/-! ### WellFormed refuses -/

theorem test_wellFormed_refuses_rsv : wordWellFormed 0x01000001 = false := by decide
theorem test_wellFormed_refuses_opc : wordWellFormed 0x00000004 = false := by decide
theorem test_wellFormed_accepts : wordWellFormed 0x00000001 = true := by decide
theorem test_load_refuses_over_capacity : loadWellFormed 3 (rising 4) = false := by decide
theorem test_load_accepts_full_capacity : loadWellFormed 4 (rising 4) = true := by decide
theorem test_load_refuses_over_len (b : List Byte) (h : b.length = 2 ^ 64) : loadWellFormed (2 ^ 65) b = false := by
  simp [loadWellFormed, loadFits, loadCountable, h]

/-! ### Decoding: each word from the opcode map, bit by bit (RSV [31:8] zero, OPC [7:0]) -/

theorem test_decode_fetch8 : decode 0b000000000000000000000000_00000001#32 = .ok .fetch8 := by decide
theorem test_decode_fetch32 : decode 0b000000000000000000000000_00000010#32 = .ok .fetch32 := by decide
theorem test_decode_fetch64 : decode 0b000000000000000000000000_00000011#32 = .ok .fetch64 := by decide
theorem test_decode_rotr64 : decode 0b000000000000000000000000_00010000#32 = .ok .rotr64 := by decide
theorem test_decode_rotr32 : decode 0b000000000000000000000000_00010001#32 = .ok .rotr32 := by decide
theorem test_decode_shiftmix : decode 0b000000000000000000000000_00010010#32 = .ok .shiftmix := by decide
theorem test_decode_combine16 : decode 0b000000000000000000000000_00010011#32 = .ok .combine16 := by decide
theorem test_decode_weakmix : decode 0b000000000000000000000000_00010100#32 = .ok .weakmix := by decide
theorem test_decode_weakmixMem : decode 0b000000000000000000000000_00010101#32 = .ok .weakmixMem := by decide
theorem test_decode_hash0to16 : decode 0b000000000000000000000000_00100000#32 = .ok .hash0to16 := by decide
theorem test_decode_hash17to32 : decode 0b000000000000000000000000_00100001#32 = .ok .hash17to32 := by decide
theorem test_decode_hash33to64 : decode 0b000000000000000000000000_00100010#32 = .ok .hash33to64 := by decide
theorem test_decode_blockInit : decode 0b000000000000000000000000_00110000#32 = .ok .blockInit := by decide
theorem test_decode_blockStep : decode 0b000000000000000000000000_00110001#32 = .ok .blockStep := by decide
theorem test_decode_finalize : decode 0b000000000000000000000000_00110010#32 = .ok .finalize := by decide
theorem test_decode_mur : decode 0b000000000000000000000000_01000000#32 = .ok .mur := by decide
theorem test_decode_mix64to32 : decode 0b000000000000000000000000_01000001#32 = .ok .mix64to32 := by decide
theorem test_decode_hash64 : decode 0b000000000000000000000000_01010000#32 = .ok .hash64 := by decide
theorem test_decode_hash32 : decode 0b000000000000000000000000_01010001#32 = .ok .hash32 := by decide

/-- The table's numbering: the word is read as it stands; a row's bits end at `nbits`. -/
theorem test_decodeTableWord : decodeTableWord 32 0x51 = some .hash32 ∧ decodeTableWord 32 0x151 = none := by decide

/-! ### Commands (95_test_vectors.md Part 2) -/

-- section 1
theorem test_fetch8_at_15 : (after .fetch8 { loaded (rising 16) with op0 := 15 }).res0 = 0x0f := by decide +kernel
theorem test_fetch8_empty : (after .fetch8 (loaded [])).faultCause = 0x104 := by decide +kernel
theorem test_fetch32_last : (after .fetch32 { loaded (rising 20) with op0 := 16 }).res0 = 0x13121110 := by decide +kernel
theorem test_fetch32_faults : (after .fetch32 { loaded (rising 16) with op0 := 13 }).faultCause = 0x404 := by decide +kernel
theorem test_fetch64_at_5 : (after .fetch64 { loaded (rising 16) with op0 := 5 }).res0 = 0x0c0b0a0908070605 := by decide +kernel
theorem test_fetch64_does_not_wrap :
    (after .fetch64 { loaded (rising 16) with op0 := 0xffffffffffffffff }).faultInfo = 0xffffffffffffffff := by decide +kernel
-- section 2
theorem test_rotr64_by_8 :
    (after .rotr64 { State.reset with op0 := 0x0123456789abcdef, op1 := 8 }).res0 = 0xef0123456789abcd := by decide +kernel
theorem test_rotr64_by_65 :
    (after .rotr64 { State.reset with op0 := 0x0123456789abcdef, op1 := 65 }).res0 = 0x8091a2b3c4d5e6f7 := by decide +kernel
theorem test_rotr32_by_31 :
    (after .rotr32 { State.reset with op0 := 0x12345678, op1 := 31 }).res0 = 0x2468acf0 := by decide +kernel
theorem test_rotr32_ignores_high_bits :
    (after .rotr32 { State.reset with op0 := 0xffffffff12345678, op1 := 33 }).res0 = 0x091a2b3c := by decide +kernel
-- section 3
theorem test_shiftmix : (after .shiftmix { State.reset with op0 := 0x0123456789abcdef }).res0 = 0x0123456789abcfa9 := by
  decide +kernel
-- section 4
theorem test_combine16_is_not_symmetric :
    (after .combine16 { State.reset with op0 := 2, op1 := 1, op2 := 0x9ae16a3b2f90404f }).res0 = 0xa3b16fde5389e351 := by
  decide +kernel
theorem test_combine16_all_ones :
    (after .combine16 { State.reset with op0 := 0xffffffffffffffff, op1 := 0xffffffffffffffff, op2 := 0xffffffffffffffff }).res0
      = 0xffffffffffffffff := by decide +kernel
-- section 5
theorem test_weakmix :
    let t := after .weakmix { State.reset with op0 := 1, op1 := 2, op2 := 3, op3 := 4, op4 := 5, op5 := 6 }
    t.res0 = 0xf ∧ t.res1 = 0x0000800000b00006 := by decide +kernel
theorem test_weakmixMem :
    let t := after .weakmixMem { loaded (List.replicate 32 0xff) with op0 := 0 }
    t.res0 = 0xfffffffffffffffc ∧ t.res1 = 0xfffff7ffffdffffd := by decide +kernel
theorem test_weakmixMem_fails_at_25 :
    (after .weakmixMem { loaded (rising 32) with op0 := 1 }).faultInfo = 0x19 := by decide +kernel
-- section 6
theorem test_hash0to16_three_bytes : (after .hash0to16 (loaded (rising 3))).res0 = 0x94a13d22e9eba49a := by decide +kernel
theorem test_hash0to16_sixteen_bytes : (after .hash0to16 (loaded (rising 16))).res0 = 0x0efd25a0a34156d4 := by decide +kernel
theorem test_hash17to32 : (after .hash17to32 (loaded (rising 31))).res0 = 0xfbd950af27ef6941 := by decide +kernel
theorem test_hash17to32_at_16 : (after .hash17to32 (loaded (rising 16))).faultCause = 3 := by decide +kernel
theorem test_hash33to64 : (after .hash33to64 (loaded (rising 63))).res0 = 0x01c1f788a248076f := by decide +kernel
theorem test_hash33to64_at_65 : (after .hash33to64 (loaded (rising 65))).faultInfo = 0x41 := by decide +kernel
-- section 7
theorem test_blockInit : lastLoopState.blk.x = 0x0858a1be0fa659ff ∧ lastLoopState.blk.endOff = 0x40 ∧
    lastLoopState.blk.last64 = 1 ∧ lastLoopState.status = 2 := by decide +kernel
theorem test_blockInit_at_64 : (after .blockInit (loaded (rising 64))).faultCause = 3 := by decide +kernel
theorem test_blockStep : tailState.blk.x = 0xd1dd0dd1ddb0b84d ∧ tailState.blk.y = 0xd989baf02a075e69 ∧
    tailState.blk.w.hi = 0x827a1730472a83af ∧ tailState.status = 4 := by decide +kernel
theorem test_blockStep_in_tail : (after .blockStep tailState).faultCause = 2 := by decide +kernel
theorem test_finalize : (after .finalize tailState).res0 = 0xc6a3282c3e793dbe ∧
    (after .finalize tailState).blk.mul = 0xb492b66fbe98f2d9 ∧ (after .finalize tailState).status = 0 := by decide +kernel
theorem test_finalize_in_loop : (after .finalize loopState).faultInfo = 0x32 ∧ (after .finalize loopState).status = 3 := by
  decide +kernel
-- section 8
theorem test_mur : (after .mur { State.reset with op0 := 0x12345678, op1 := 0x9abcdef0 }).res0 = 0xb459e44d := by decide +kernel
theorem test_mix64to32_orders :
    mix64to32With .hiLo 0x0123456789abcdef = 0x94893cf5 ∧ mix64to32With .loHi 0x0123456789abcdef = 0xa3941713 := by
  decide +kernel
-- section 9; "a" is the byte 0x61
theorem test_hash64_a : (after .hash64 (loaded [0x61])).res0 = 0xb3454265b6df75e3 := by decide +kernel
theorem test_hash64_65 : (after .hash64 (loaded (rising 65))).res0 = 0xc6a3282c3e793dbe := by decide +kernel
theorem test_hash32_keeps_the_hash_in_res1 : (after .hash32 (loaded (rising 33))).res1 = 0xe8756ec1cb75524e := by decide +kernel
theorem test_hash32_folds :
    mix64to32With .hiLo 0xe8756ec1cb75524e = 0xace54ef1 ∧ mix64to32With .loHi 0xe8756ec1cb75524e = 0x8aecbd4a := by
  decide +kernel

/-! ### Host actions and the assembler -/

-- section 10: the first word is illegal, and while halted a legal one changes nothing
theorem test_illegal_word : (stateOf (issue 0x01000001 (loaded (rising 1)))).faultInfo = 0x1000001 := by decide +kernel
theorem test_halted_ignores : issue 0x50 haltedState = .next haltedState := rfl
theorem test_load_resets_seq : (stateOf (hostLoad 4096 (rising 3) loopState)).seq = .idle ∧
    (stateOf (hostLoad 4096 (rising 3) loopState)).input = [0, 1, 2] := by decide +kernel
theorem test_load_over_capacity : hostLoad 2 (rising 3) State.reset = .refused (.loadOverCapacity 3) := rfl
theorem test_write_read_only : perform (.write 0x10 7) State.reset = .next State.reset := rfl
theorem test_write_cmd : (stateOf (perform (.write 0x00 0xdead000000000000) State.reset)).faultCause = 1 := by decide +kernel
theorem test_read_seed : (stateOf (perform (.read 0x35) State.reset)).seen = [0x51] := by decide +kernel
theorem test_reset_keeps_no_fault : (stateOf (perform .reset haltedState)).status = 0 := by decide +kernel
-- 95_test_vectors.md Part 3: a line of program P1 and one of P4
theorem test_assemble_wr : assembleLine "wr OP1, 8                    ; reg 0x09" = some [.write 0x09 8] := by decide +kernel
theorem test_assemble_comment_only : assembleLine "  ; no action" = some [] ∧ assembleLine "" = some [] := by decide +kernel
theorem test_assemble_cmd : assembleLine ".cmd 0x00000004" = some [.issue 0x00000004] := by decide +kernel
/-- The step runs the word the host's probe places, as the first action after reset. -/
theorem test_step_runs_the_placed_word : (stateOf (step (State.reset.withFetchWord 32 0x20))).res0 = 0x9ae16a3b2f90404f := by
  decide +kernel

/-! ### Witnesses: the hypotheses of the statements, and their clauses at the ends of their ranges -/

theorem witness_IllegalWordRaisesIllegalCmd :
    State.reset.halted = false ∧ (0x00000101#32).extractLsb' 8 24 ≠ 0 ∧ (0x80000001#32).extractLsb' 8 24 ≠ 0 ∧
    (0x00000000#32).extractLsb' 0 8 ∉ Reference.opcodeMap.map Prod.fst ∧
    (0x00000052#32).extractLsb' 0 8 ∉ Reference.opcodeMap.map Prod.fst := by decide

theorem witness_StepPerformsTheNextAction :
    State.reset.pending = [] ∧ ({ State.reset with pending := [.reset] } : State).pending = .reset :: [] := by decide

theorem witness_StepRunsTheDecodedCommand :
    ({ haltedState with pending := [.issue 0x50] } : State).pending = .issue 0x50 :: [] ∧
    ({ haltedState with pending := [.issue 0x50] } : State).halted = true ∧
    ({ State.reset with pending := [.issue 0x04] } : State).halted = false ∧ decode 0x04 = .error (.unassignedOpc 0x04) ∧
    decode 0x50 = .ok .hash64 ∧ Instr.hash64.wellFormed = true ∧
    ({ State.reset with pending := [.write 0x00 0x50] } : State).pending = .write 0x00 0x50 :: [] := by decide +kernel

theorem witness_PowerOnReadsZero : (0x00#8).toNat < 0x30 ∧ (0x2f#8).toNat < 0x30 := by decide

theorem witness_HostReadsAndWrites : (0x01#8) ≠ 0x00 ∧ 0x05#8 ∉ allRegs.map regNumber ∧ 0xff#8 ∉ allRegs.map regNumber := by decide

/-- The empty load, a load that fills the block, and a load on a block of more than 2^64 bytes. -/
theorem witness_HostLoadReplacesTheInput :
    (rising 0).length ≤ 4 ∧ (rising 4).length ≤ 4 ∧ (rising 4).length ≤ 2 ^ 65 ∧ (rising 4).length < 2 ^ 64 := by decide

/-- Operand lists of no, one and six words, and the text of two. -/
theorem witness_AssemblerExpandsMnemonics :
    ([] : List Word).length ≤ 6 ∧ ([1] : List Word).length ≤ 6 ∧ ([1, 2, 3, 4, 5, 6] : List Word).length ≤ 6 ∧
    "0x10, 8".toList ≠ [] ∧ (splitCommas "0x10, 8".toList).mapM (readImm 64) = some [0x10, 8] := by decide +kernel

theorem witness_LoadsThatDoNotFitAreRefused :
    3 < (rising 4).length ∧ (List.replicate (2 ^ 64) (0 : Byte)).length ≤ 2 ^ 64 ∧
      2 ^ 64 ≤ (List.replicate (2 ^ 64) (0 : Byte)).length := by
  refine ⟨by decide, ?_, ?_⟩ <;> rw [List.length_replicate]

theorem witness_HostLoadAbandonsTheSequence :
    loopState.seq = .loop ∧ ∃ t, hostLoad 4 (rising 4) loopState = .next t ∧ t.halted = false :=
  ⟨by decide +kernel, _, rfl, by decide +kernel⟩

theorem witness_MemReadIsLittleEndianAndBounded :
    8 + 8 ≤ (loaded (rising 16)).len.toNat ∧ (loaded (rising 16)).len.toNat < 9 + 8 ∧
    12 + 4 ≤ (loaded (rising 16)).len.toNat ∧ (loaded (rising 16)).len.toNat < 13 + 4 ∧
    15 + 1 ≤ (loaded (rising 16)).len.toNat ∧ (loaded (rising 16)).len.toNat < 16 + 1 := by decide +kernel

theorem witness_MixedWidthReadsAgree : fetch64 (loaded (rising 16)) 8 = .ok 0x0f0e0d0c0b0a0908 := by decide +kernel

/-- The offsets of FETCH8, FETCH32 and FETCH64 at LEN 16: the last that completes, the first that faults, and the highest. -/
theorem witness_Fetches :
    (loaded (rising 16)).halted = false ∧ (loaded (rising 16)).len.toNat = 16 ∧
    (15#64).toNat + 1 ≤ 16 ∧ 16 < (16#64).toNat + 1 ∧ (12#64).toNat + 4 ≤ 16 ∧ 16 < (13#64).toNat + 4 ∧
    (8#64).toNat + 8 ≤ 16 ∧ 16 < (9#64).toNat + 8 ∧ 16 < (0xffffffffffffffff#64).toNat + 8 := by decide +kernel

theorem witness_Rotations : 0 ≤ 63 ∧ 63 ≤ 63 ∧ 31 ≤ 31 := by decide

/-- The clauses of WEAKMIX_MEM at LEN 32: the span that fits, and for each of the four reads a span that fails there first. -/
theorem witness_WeakmixMemReadsAThirtyTwoByteSpan :
    (loaded (rising 32)).halted = false ∧ (loaded (rising 32)).len.toNat = 32 ∧ 0 + 32 ≤ 32 ∧
    (32 < 25 + 8 * 0 + 8 ∧ ∀ j, j < 0 → 25 + 8 * j + 8 ≤ 32) ∧ (32 < 24 + 8 * 1 + 8 ∧ ∀ j, j < 1 → 24 + 8 * j + 8 ≤ 32) ∧
    (32 < 16 + 8 * 2 + 8 ∧ ∀ j, j < 2 → 16 + 8 * j + 8 ≤ 32) ∧ (32 < 1 + 8 * 3 + 8 ∧ ∀ j, j < 3 → 1 + 8 * j + 8 ≤ 32) := by
  decide +kernel

/-- The lengths at which the bands meet, in states that are not halted. -/
theorem witness_Bands :
    (loaded (rising 0)).len.toNat = 0 ∧ (loaded (rising 16)).len.toNat = 16 ∧ (loaded (rising 17)).len.toNat = 17 ∧
    (loaded (rising 32)).len.toNat = 32 ∧ (loaded (rising 33)).len.toNat = 33 ∧ (loaded (rising 64)).len.toNat = 64 ∧
    (loaded (rising 65)).len.toNat = 65 ∧ (loaded (rising 17)).halted = false := by decide +kernel

/-- Commands that answer a next state inside their band and outside it. -/
theorem witness_CommandsAnswer :
    (∃ t, exec .hash0to16 (loaded (rising 16)) = .next t ∧ t.faultCause = 0) ∧
    (∃ t, exec .hash0to16 (loaded (rising 17)) = .next t ∧ t.faultCause = 3) ∧
    (∃ t, exec .blockInit (loaded (rising 65)) = .next t ∧ t.seq = .loop) ∧
    ∃ t, exec .blockInit (loaded (rising 64)) = .next t ∧ t.faultCause = 3 :=
  ⟨⟨_, exec_after _ _, by decide +kernel⟩, ⟨_, exec_after _ _, by decide +kernel⟩, ⟨_, exec_after _ _, by decide +kernel⟩, ⟨_, exec_after _ _, by decide +kernel⟩⟩

/-- LOOP with another step due after this one. -/
theorem witness_loop : loopState.seq = .loop ∧ loopState.blockInv ∧ loopState.halted = false ∧
    loopState.blk.s + 64 ≠ loopState.blk.endOff :=
  ⟨by decide +kernel, ⟨by decide +kernel, by decide +kernel⟩, by decide +kernel, by decide +kernel⟩

/-- LOOP with the last step due. -/
theorem witness_last_step : lastLoopState.seq = .loop ∧ lastLoopState.blockInv ∧ lastLoopState.halted = false ∧
    lastLoopState.blk.s + 64 = lastLoopState.blk.endOff :=
  ⟨by decide +kernel, ⟨by decide +kernel, by decide +kernel⟩, by decide +kernel, by decide +kernel⟩

/-- TAIL. -/
theorem witness_tail : tailState.seq = .tail ∧ tailState.blockInv ∧ tailState.halted = false :=
  ⟨by decide +kernel, ⟨by decide +kernel, by decide +kernel⟩, by decide +kernel⟩

/-- Neither: BLOCK_STEP and FINALIZE are out of order. -/
theorem witness_idle : (loaded []).seq ≠ .loop ∧ (loaded []).seq ≠ .tail ∧ (loaded []).halted = false := by decide +kernel

theorem witness_BlockStepCount :
    (loaded (rising 193)).halted = false ∧ 65 ≤ (loaded (rising 193)).len.toNat ∧
    0 ≤ ((loaded (rising 193)).len.toNat - 1) / 64 ∧ ((loaded (rising 193)).len.toNat - 1) / 64 = 3 := by decide +kernel

theorem witness_FoldLaws : (0x0000000700000007#64).extractLsb' 32 32 = (0x0000000700000007#64).extractLsb' 0 32 := by decide

theorem witness_CommandsAgreeOnTheHash :
    (loaded (rising 33)).halted = false ∧ (∃ t, exec .hash64 (loaded (rising 33)) = .next t ∧
      ∃ u, exec .mix64to32 { t with op0 := t.res0 } = .next u) :=
  ⟨by decide +kernel, _, exec_after _ _, _, exec_after _ _⟩

theorem witness_LoadThenHashIsTheFunction :
    State.reset.halted = false ∧ (rising 4).length ≤ 4 ∧ (rising 4).length < 2 ^ 64 := by decide

/-- Two blocks with one input that differ in their registers and in a byte of INBUF at LEN. -/
theorem witness_HashDependsOnTheInputAlone :
    Reference.sameInput (loaded [5]) { loaded [5, 6] with len := 1, res0 := 7, seq := .loop } ∧
    (loaded [5]).halted = false ∧ (∃ t, exec .hash64 (loaded [5]) = .next t) ∧ (∃ t, exec .hash32 (loaded [5]) = .next t) := by
  refine ⟨⟨by decide +kernel, ?_⟩, by decide +kernel, ⟨_, exec_after _ _⟩, _, exec_after _ _⟩
  have h : (loaded [5]).len.toNat = 1 := by decide +kernel
  intro off ho
  rw [h] at ho
  match off, ho with
  | 0, _ => decide +kernel

theorem witness_HaltedUntilReset :
    haltedState.halted = true ∧ (∃ t, perform (.write 0x08 9) haltedState = .next t) ∧ HostAction.write 0x08 9 ≠ .reset ∧
    ([] : List Byte).length ≤ Config.maxLen := ⟨by decide, ⟨_, rfl⟩, by decide, Nat.zero_le _⟩

theorem witness_SequenceFaultExactlyOutOfOrder :
    (∃ t, exec .blockStep tailState = .next t ∧ t.faultCause = 2) ∧ (∃ t, exec .finalize loopState = .next t ∧ t.faultCause = 2) ∧
    ∃ t, exec .blockStep loopState = .next t ∧ t.faultCause = 0 :=
  ⟨⟨_, exec_after _ _, by decide +kernel⟩, ⟨_, exec_after _ _, by decide +kernel⟩, _, exec_after _ _, by decide +kernel⟩

theorem witness_OnlyHostOffsetsReadOutOfBounds :
    (loaded []).halted = false ∧ (loaded []).blockInv ∧
    ∃ t, exec .fetch8 (loaded []) = .next t ∧ t.faultCause.extractLsb' 0 8 = 4 :=
  ⟨by decide, ⟨by decide, by decide⟩, _, exec_after _ _, by decide +kernel⟩

/-- A command of each frame's list that answers a next state, and one that faults. -/
theorem witness_Frames :
    (∃ t, exec .mur State.reset = .next t) ∧ (∃ t, exec .fetch64 State.reset = .next t ∧ t.halted = true) ∧
    (∃ t, exec .weakmix State.reset = .next t) ∧ (∃ t, exec .weakmixMem State.reset = .next t ∧ t.halted = true) ∧
    (∃ t, exec .blockStep lastLoopState = .next t ∧ t.seq = .tail) ∧ (∃ t, exec .finalize tailState = .next t ∧ t.seq = .idle) ∧
    ∃ t, exec .hash64 (loaded (rising 65)) = .next t :=
  ⟨⟨_, exec_after _ _⟩, ⟨_, exec_after _ _, by decide +kernel⟩, ⟨_, exec_after _ _⟩, ⟨_, exec_after _ _, by decide +kernel⟩, ⟨_, exec_after _ _, by decide +kernel⟩,
    ⟨_, exec_after _ _, by decide +kernel⟩, _, exec_after _ _⟩

/-- A command without exceptions, in a state that is not halted. -/
theorem witness_CommandsWithoutExceptionComplete :
    (loaded (rising 65)).halted = false ∧
    .weakmix ∈ ([.rotr64, .rotr32, .shiftmix, .combine16, .weakmix, .mur, .mix64to32, .hash64, .hash32] : List Instr) := by
  decide +kernel

/-- A step from a state in TAIL that meets every invariant, to one that has left it. -/
theorem witness_Invariants :
    (tailState.withFetchWord 32 0x32).blockInv ∧ (tailState.withFetchWord 32 0x32).inputInv ∧
    (tailState.withFetchWord 32 0x32).faultInv ∧ (∃ t, step (tailState.withFetchWord 32 0x32) = .next t) ∧
    State.reset.capacityInv ∧ ∃ t, step State.reset = .next t := by
  refine ⟨⟨by decide +kernel, by decide +kernel⟩, ⟨by decide +kernel, by decide +kernel⟩, ⟨by decide +kernel, by decide +kernel⟩,
    ⟨_, rfl⟩, Nat.zero_le _, _, rfl⟩

end Sys2Proof.Tests
end

section
/-! SUPPORT. The statements about the state (10_state.md) and the layer under them: the register map in both directions, what a
step can do, and how a predicate on states is shown to be kept by every step. -/

namespace Sys2Proof.Machine

/-! ### The register map -/

/-- A number belongs to one register at most (10_state.md rule R37). -/
theorem regOfNumber_eq_some {num : BitVec 8} {r : Reg} : regOfNumber num = some r ↔ num = regNumber r := by
  constructor
  · intro h
    unfold regOfNumber at h
    split at h
    all_goals cases h <;> rfl
  · rintro rfl
    exact regOfNumber_regNumber r

/-- A number is unassigned exactly when no register has it (rule R37). -/
theorem regOfNumber_eq_none {num : BitVec 8} : regOfNumber num = none ↔ ∀ r, num ≠ regNumber r := by
  simp only [Option.eq_none_iff_forall_ne_some, ne_eq, regOfNumber_eq_some]

/-- The list of rule R37 leaves no register out. -/
theorem mem_allRegs (r : Reg) : r ∈ allRegs := by cases r <;> decide

@[simp] theorem readNumber_regNumber (s : State) (r : Reg) : readNumber s (regNumber r) = readReg s r := by
  rw [readNumber, regOfNumber_regNumber]

/-- An unassigned number reads 0 (rule R38). -/
theorem readNumber_unassigned (s : State) {num : BitVec 8} (h : num ∉ allRegs.map regNumber) : readNumber s num = 0 := by
  have hnone : regOfNumber num = none :=
    regOfNumber_eq_none.mpr fun r hr => h (hr ▸ List.mem_map_of_mem (mem_allRegs r))
  rw [readNumber, hnone]

/-! ### STATUS -/

/-- STATUS[0] is HALTED (rule R35). -/
@[simp] theorem status_bit_halted (s : State) : s.status.getLsbD 0 = s.halted := by
  unfold State.status
  cases s.seq <;> cases s.halted <;> rfl

/-- STATUS[2:1] is SEQ (rule R35). -/
@[simp] theorem status_bits_seq (s : State) : s.status.extractLsb' 1 2 = s.seq.code := by
  unfold State.status
  cases s.seq <;> cases s.halted <;> rfl

/-- STATUS[63:3] reads 0 (rule R35). -/
@[simp] theorem status_bits_high (s : State) : s.status.extractLsb' 3 61 = 0 := by
  unfold State.status
  cases s.seq <;> cases s.halted <;> rfl

/-- The block is halted exactly when CODE is not 0 (rule R35). -/
theorem halted_iff (s : State) : s.halted = true ↔ s.faultCause.extractLsb' 0 8 ≠ 0 := bne_iff_ne

/-! ### A host WRITE by number -/

/-- A WRITE to an unassigned number is ignored (rule R38). -/
theorem hostWrite_unassigned (s : State) {num : BitVec 8} (v : Word) (h : regOfNumber num = none) :
    hostWrite num v s = .next s := by
  rw [hostWrite, h]

/-! ### A step -/

theorem step_idle {s : State} (h : s.pending = []) : step s = .next s := by
  rw [step, takeAction, h]

theorem step_action {s : State} {a : HostAction} {rest : List HostAction} (h : s.pending = a :: rest) :
    step s = perform a { s with pending := rest } := by
  rw [step, takeAction, h]

/-- Everything a step that answers a next state did: nothing, or the host's next action (rules R20 and R43). -/
theorem step_next {s t : State} (h : step s = .next t) :
    t = s ∨ ∃ a rest, s.pending = a :: rest ∧ perform a { s with pending := rest } = .next t := by
  cases hp : s.pending with
  | nil =>
    rw [step_idle hp] at h
    injection h with h
    exact .inl h.symm
  | cons a rest => exact .inr ⟨a, rest, rfl, step_action hp ▸ h⟩

/-- The word of a command decodes to it (30_encoding.md rules R83 and R84). -/
theorem decode_encode (i : Instr) : decode (encode i) = .ok i := by cases i <;> rfl

/-- A whole command word is its own table row. -/
@[simp] theorem tableWord_toNat (w : BitVec 32) : tableWord 32 w.toNat = w := by
  rw [tableWord, Nat.mod_eq_of_lt w.isLt, BitVec.ofNat_toNat, BitVec.setWidth_eq]

/-! ### What every step keeps -/

/-- The width of an OOB_READ is that of a byte reader (60_exceptions.md rule R261). -/
def Trap.widthLegal : Trap → Prop
  | .oobRead _ n => n = 1 ∨ n = 4 ∨ n = 8
  | _ => True

/-- A command takes no fault of another width. -/
theorem faults_widthLegal {i : Instr} {s : State} {c : Trap} (h : Faults i s c) : c.widthLegal := by
  cases i with
  | fetch8 => obtain rfl := h; exact .inl rfl
  | fetch32 => obtain rfl := h; exact .inr (.inl rfl)
  | fetch64 => obtain rfl := h; exact .inr (.inr rfl)
  | weakmixMem => obtain ⟨off, rfl⟩ := h; exact .inr (.inr rfl)
  | hash0to16 | hash17to32 | hash33to64 | blockInit => obtain ⟨-, rfl⟩ := h; trivial
  | blockStep | finalize =>
    obtain ⟨-, rfl⟩ | ⟨-, -, off, rfl⟩ := h
    · trivial
    · exact .inr (.inr rfl)
  | _ => exact h.elim

/-- A predicate on states that each of the host's actions keeps; of an ISSUE, each command and each fault. -/
structure KeptByActions (P : State → Prop) : Prop where
  take (s : State) (rest : List HostAction) : P s → P { s with pending := rest }
  reset (s : State) : P s.hostReset
  load (s : State) (b : List Byte) : b.length ≤ Config.maxLen → b.length < 2 ^ 64 → P s →
    P ((s.setInput (Memory.ofBytes b) (BitVec.ofNat 64 b.length)).setSeq .idle)
  write (s : State) (r : Reg) (v : Word) : P s → P (writeReg s r v)
  read (s : State) (num : BitVec 8) : P s → P (hostRead num s)
  fault (s : State) (c : Trap) : c.widthLegal → P s → P (s.raiseFault c)
  command {i : Instr} {s t : State} : Writes i s t → P s → P t

section
variable {P : State → Prop} (hP : KeptByActions P) {s t : State}
include hP

theorem KeptByActions.of_exec {i : Instr} (hs : P s) (h : exec i s = .next t) : P t := by
  obtain hw | ⟨c, rfl, hf⟩ := exec_next h
  · exact hP.command hw hs
  · exact hP.fault s c (faults_widthLegal hf) hs

theorem KeptByActions.of_issue {w : BitVec 32} (hs : P s) (h : issue w s = .next t) : P t := by
  obtain rfl | ⟨i, h⟩ | rfl := issue_next h
  · exact hs
  · exact hP.of_exec hs h
  · exact hP.fault s _ trivial hs

theorem KeptByActions.of_perform {a : HostAction} (hs : P s) (h : perform a s = .next t) : P t := by
  obtain ⟨-, rfl⟩ | ⟨b, -, h⟩ | ⟨w, h⟩ | ⟨num, v, r, -, rfl⟩ | ⟨num, v, -, rfl⟩ | ⟨num, -, rfl⟩ := perform_next h
  · exact hP.reset s
  · obtain ⟨hcap, hlen, rfl⟩ := hostLoad_next h
    exact hP.load s b hcap hlen hs
  · exact hP.of_issue hs h
  · exact hP.write s r v hs
  · exact hs
  · exact hP.read s num hs

/-- A predicate that every action keeps is kept by every step. -/
theorem KeptByActions.of_step (hs : P s) (h : step s = .next t) : P t := by
  obtain rfl | ⟨a, rest, -, h⟩ := step_next h
  · exact hs
  · exact hP.of_perform (hP.take s rest hs) h

end

/-! ### The block-state invariant -/

/-- The invariant speaks of SEQ, LEN and the block registers alone (10_state.md rule R42). -/
theorem blockInv_congr {s t : State} (hq : t.seq = s.seq) (hl : t.len = s.len) (hb : t.blk = s.blk) (h : s.blockInv) :
    t.blockInv := by
  simpa only [State.blockInv, hq, hl, hb] using h

/-- It asks nothing while no sequence is open. -/
theorem blockInv_of_idle {s : State} (h : s.seq = .idle) : s.blockInv := by
  simp [State.blockInv, h]

/-- What a command that takes no fault does to SEQ and the block registers: it keeps them, closes the sequence, opens one
(BLOCK_INIT, 43_block_loop.md rule R184) or moves it on by a chunk (BLOCK_STEP, rule R185). -/
theorem writes_sequence {i : Instr} {s t : State} (h : Writes i s t) :
    (t.seq = s.seq ∧ t.blk = s.blk) ∨ t.seq = .idle ∨
      (65 ≤ s.len.toNat ∧ t = (s.setBlk (Reference.start s.input s.blk)).setSeq .loop) ∨
      (s.seq = .loop ∧ ∃ b, blockStep s s.blk = .ok b ∧
        t = { s with blk := b, seq := if s.blk.s + 64 = s.blk.endOff then .tail else .loop }) := by
  cases i with
  | blockInit => exact .inr (.inr (.inl h))
  | blockStep => exact .inr (.inr (.inr h))
  | finalize => obtain ⟨-, r, -, rfl⟩ := h; exact .inr (.inl rfl)
  | hash64 | hash32 => obtain ⟨b, v0, v1, rfl, -⟩ := h; exact .inr (.inl rfl)
  | hash0to16 | hash17to32 | hash33to64 => obtain ⟨-, v, rfl⟩ := h; exact .inl ⟨rfl, rfl⟩
  | _ => obtain ⟨v, rfl⟩ := h; exact .inl ⟨rfl, rfl⟩

/-- END after BLOCK_INIT is exact: it does not leave 64 bits (10_state.md rule R29). -/
theorem start_endOff_toNat (s : State) (r : BlockRegs) :
    (Reference.start s.input r).endOff.toNat = (s.len.toNat - 1) / 64 * 64 := by
  have hlt := s.len.isLt
  rw [Reference.start, State.input_length, BitVec.toNat_ofNat, Nat.mod_eq_of_lt (by omega)]

/-- LAST64 after BLOCK_INIT is exact too (rule R30). -/
theorem start_last64_toNat (s : State) (r : BlockRegs) :
    (Reference.start s.input r).last64.toNat = s.len.toNat - 64 := by
  have hlt := s.len.isLt
  rw [Reference.start, State.input_length, BitVec.toNat_ofNat, Nat.mod_eq_of_lt (by omega)]

/-- BLOCK_INIT opens a sequence that meets the invariant: S is 0 and END is at least one chunk (43_block_loop.md rule R180). -/
theorem blockInv_start {s : State} (h : 65 ≤ s.len.toNat) :
    ((s.setBlk (Reference.start s.input s.blk)).setSeq .loop).blockInv := by
  have hend := start_endOff_toNat s s.blk
  have hpos : 0 < (Reference.start s.input s.blk).endOff.toNat := by omega
  exact ⟨fun _ => ⟨h, hend, start_last64_toNat s s.blk, rfl, hpos⟩, nofun⟩

/-- S below END, both multiples of a chunk: the next chunk's offset does not wrap and is at most END. -/
theorem next_chunk_le {a e : Word} (ha : a.toNat % 64 = 0) (he : e.toNat % 64 = 0) (h : a.toNat < e.toNat) :
    (a + 64).toNat = a.toNat + 64 ∧ a.toNat + 64 ≤ e.toNat := by
  bv_omega

/-- BLOCK_STEP keeps the invariant (rule R185): S moves on by a chunk, and SEQ is TAIL exactly where it has reached END. -/
theorem blockInv_blockStep {s : State} {b : BlockRegs} (hs : s.blockInv) (hq : s.seq = .loop)
    (hb : blockStep s s.blk = .ok b) :
    State.blockInv { s with blk := b, seq := if s.blk.s + 64 = s.blk.endOff then .tail else .loop } := by
  obtain ⟨hlen, hend, hlast, hmod, hlt⟩ := hs.1 hq
  obtain ⟨hs', hend', hlast', -⟩ := blockStep_keeps hb
  obtain ⟨hadd, hle⟩ := next_chunk_le hmod (by omega) hlt
  by_cases hdone : s.blk.s + 64 = s.blk.endOff
  · rw [if_pos hdone]
    refine ⟨nofun, fun _ => ?_⟩
    simp only [hs', hend', hlast']
    exact ⟨hlen, hend, hlast, hdone⟩
  · rw [if_neg hdone]
    have hne : (s.blk.s + 64).toNat ≠ s.blk.endOff.toNat := fun h => hdone (BitVec.eq_of_toNat_eq h)
    refine ⟨fun _ => ?_, nofun⟩
    simp only [hs', hend', hlast']
    exact ⟨hlen, hend, hlast, by omega, by omega⟩

theorem blockInv_kept : KeptByActions State.blockInv where
  take _ _ := blockInv_congr rfl rfl rfl
  reset _ := blockInv_of_idle rfl
  load _ _ _ _ _ := blockInv_of_idle rfl
  write s r v := blockInv_congr (writeReg_seq s r v) (writeReg_len s r v) (writeReg_blk s r v)
  read _ _ := blockInv_congr rfl rfl rfl
  fault _ _ _ := blockInv_congr rfl rfl rfl
  command hw hs := by
    obtain ⟨⟨-, hlen, -⟩, -⟩ := writes_keeps hw
    obtain ⟨hseq, hblk⟩ | hidle | ⟨h65, rfl⟩ | ⟨hq, b, hb, rfl⟩ := writes_sequence hw
    · exact blockInv_congr hseq hlen hblk hs
    · exact blockInv_of_idle hidle
    · exact blockInv_start h65
    · exact blockInv_blockStep hs hq hb

/-- Settles O56: SEQ opens at BLOCK_INIT with S at 0, and BLOCK_STEP moves S to END by whole chunks. -/
theorem stepKeepsTheBlockInvariant : Obligations.StepKeepsTheBlockInvariant := by
  unfold Obligations.StepKeepsTheBlockInvariant
  exact fun s t hs h => blockInv_kept.of_step hs h

/-! ### The form of INBUF -/

/-- The form of INBUF and the bound on LEN together speak of INBUF and LEN alone. -/
theorem inputForm_congr {s t : State} (hm : t.inbuf = s.inbuf) (hl : t.len = s.len) (h : s.inputInv ∧ s.capacityInv) :
    t.inputInv ∧ t.capacityInv := by
  simpa only [State.inputInv, State.capacityInv, hm, hl] using h

theorem inputForm_kept : KeptByActions fun s => s.inputInv ∧ s.capacityInv where
  take _ _ := inputForm_congr rfl rfl
  reset _ := ⟨⟨rfl, rfl⟩, Nat.zero_le _⟩
  load s b hcap hlen _ := by
    have hn : (BitVec.ofNat 64 b.length).toNat = b.length := by rw [BitVec.toNat_ofNat, Nat.mod_eq_of_lt hlen]
    refine ⟨⟨wf_ofBytes b, ?_⟩, ?_⟩
    · simpa [hn] using within_ofBytes b
    · simpa [State.capacityInv, hn] using hcap
  write s r v := inputForm_congr (writeReg_inbuf s r v) (writeReg_len s r v)
  read _ _ := inputForm_congr rfl rfl
  fault _ _ _ := inputForm_congr rfl rfl
  command hw hs := by
    obtain ⟨⟨-, hlen, -⟩, hinbuf, -⟩ := writes_keeps hw
    exact inputForm_congr hinbuf hlen hs

/-- Settles O57: only RESET and HOST_LOAD write INBUF and LEN, and both leave the form. -/
theorem stepKeepsTheInputForm : Obligations.StepKeepsTheInputForm := by
  unfold Obligations.StepKeepsTheInputForm
  exact fun s t hform hcap h => inputForm_kept.of_step ⟨hform, hcap⟩ h

/-! ### The fault registers -/

theorem faultInv_congr {s t : State} (h : Reference.keepsFault s t) (hs : s.faultInv) : t.faultInv := by
  obtain ⟨hcause, hinfo⟩ := h
  simpa only [State.faultInv, hcause, hinfo] using hs

/-- A fault leaves one of the values of 10_state.md rule R33, and none of them is 0. -/
theorem raiseFault_faultInv (s : State) {c : Trap} (hc : c.widthLegal) : (s.raiseFault c).faultInv := by
  have hcause : (s.raiseFault c).faultCause ∈ faultCauses.tail := by
    cases c with
    | illegalCmd w => simp [Trap.width, Trap.code, faultCauses]
    | sequence w => simp [Trap.width, Trap.code, faultCauses]
    | bandLen len => simp [Trap.width, Trap.code, faultCauses]
    | oobRead off n => obtain rfl | rfl | rfl := hc <;> simp [Trap.width, Trap.code, faultCauses]
  refine ⟨List.mem_of_mem_tail hcause, fun h0 => ?_⟩
  rw [h0] at hcause
  exact absurd hcause (by decide)

theorem faultInv_kept : KeptByActions State.faultInv where
  take _ _ := faultInv_congr ⟨rfl, rfl⟩
  reset _ := ⟨List.mem_cons_self, fun _ => rfl⟩
  load _ _ _ _ := faultInv_congr ⟨rfl, rfl⟩
  write s r v := faultInv_congr ⟨writeReg_faultCause s r v, writeReg_faultInfo s r v⟩
  read _ _ := faultInv_congr ⟨rfl, rfl⟩
  fault s _ hc _ := raiseFault_faultInv s hc
  command hw hs := by
    obtain ⟨-, -, hfault⟩ := writes_keeps hw
    exact faultInv_congr hfault hs

/-- Settles O58: a step clears the fault registers, keeps them, or writes those of a cause. -/
theorem stepKeepsTheFaultRegistersLegal : Obligations.StepKeepsTheFaultRegistersLegal := by
  unfold Obligations.StepKeepsTheFaultRegistersLegal
  exact fun s t hs h => faultInv_kept.of_step hs h

/-! ### What the host reads and writes -/

/-- Settles O11, from the three slices of STATUS. -/
theorem statusShowsHaltedAndSeq : Obligations.StatusShowsHaltedAndSeq := by
  unfold Obligations.StatusShowsHaltedAndSeq
  refine ⟨fun s => ?_, rfl⟩
  have hread : readNumber s 0x01 = s.status := readNumber_regNumber s .status
  rw [hread, status_bit_halted, status_bits_seq, status_bits_high]
  refine ⟨halted_iff s, ?_, rfl, fun _ => rfl⟩
  cases s.seq <;> rfl

/-- A WRITE by number (10_state.md rule R38): CMD issues, OP0 to OP5 take the value, every other number is ignored. -/
theorem hostWrite_eq (num : BitVec 8) (v : Word) (s : State) :
    hostWrite num v s =
      if num = 0x00 then issue (v.extractLsb' 0 32) s
      else if num = 0x08 then .next { s with op0 := v }
      else if num = 0x09 then .next { s with op1 := v }
      else if num = 0x0A then .next { s with op2 := v }
      else if num = 0x0B then .next { s with op3 := v }
      else if num = 0x0C then .next { s with op4 := v }
      else if num = 0x0D then .next { s with op5 := v }
      else .next s := by
  cases hr : regOfNumber num with
  | some r =>
    obtain rfl := regOfNumber_eq_some.mp hr
    cases r <;> rfl
  | none =>
    have hne := regOfNumber_eq_none.mp hr
    rw [hostWrite_unassigned s v hr]
    exact ((if_neg (hne .cmd)).trans <| (if_neg (hne .op0)).trans <| (if_neg (hne .op1)).trans <|
      (if_neg (hne .op2)).trans <| (if_neg (hne .op3)).trans <| (if_neg (hne .op4)).trans <| if_neg (hne .op5)).symm

/-- Settles O12, by the register each number selects. -/
theorem hostReadsAndWrites : Obligations.HostReadsAndWrites := by
  unfold Obligations.HostReadsAndWrites
  refine fun s num v => ⟨rfl, ?_, hostWrite_eq num v s⟩
  rintro (rfl | hnum)
  · exact readNumber_regNumber s .cmd
  · exact readNumber_unassigned s hnum

/-- Settles O13: the memory is the bytes in canonical form. -/
theorem hostLoadReplacesTheInput : Obligations.HostLoadReplacesTheInput := by
  unfold Obligations.HostLoadReplacesTheInput
  refine ⟨fun _ _ => rfl, fun maxLen b s hcap hlen => ⟨Memory.ofBytes b, hostLoad_fits s hcap hlen, fun i hi => ?_⟩⟩
  rw [byteAt_ofBytes, List.getD_eq_getElem b 0 hi]

/-- Settles O10: every row of the register map by its register, and no register at any other number. -/
theorem registerMapReads : Obligations.RegisterMapReads := by
  unfold Obligations.RegisterMapReads
  exact fun s => ⟨rfl, rfl, rfl, rfl, rfl, rfl, fun num hnum => readNumber_unassigned s hnum⟩

/-! ### Steps -/

/-- Settles O6, by the two forms of the host's list. -/
theorem stepPerformsTheNextAction : Obligations.StepPerformsTheNextAction := by
  unfold Obligations.StepPerformsTheNextAction
  exact fun s => ⟨step_idle, fun a rest => step_action⟩

/-- The word that `withFetchWord` places is what the next step issues, before the actions that were due. -/
theorem step_withFetchWord (s : State) (w : BitVec 32) : step (s.withFetchWord 32 w.toNat) = issue w s := by
  rw [State.withFetchWord, tableWord_toNat]
  exact step_action (s := s.withIssue w) rfl

/-- Settles O7, by the order of the checks of an ISSUE. -/
theorem stepRunsTheDecodedCommand : Obligations.StepRunsTheDecodedCommand := by
  unfold Obligations.StepRunsTheDecodedCommand
  refine fun s rest => ⟨fun w hw => ?_, fun v hv => ?_, fun hrun i => ?_⟩
  · rw [step_action hw]
    exact ⟨fun hhalt => issue_halted w hhalt, fun hrun e he => issue_illegal hrun he, fun hrun i hi _ => issue_legal hrun hi⟩
  · rw [step_action hv]
    exact (step_action (s := { s with pending := .issue (v.extractLsb' 0 32) :: rest }) rfl).symm
  · rw [step_withFetchWord, issue_legal hrun (decode_encode i)]

end Sys2Proof.Machine
end

section
/-! SUPPORT. The statements about reads of INBUF (20_memory.md): the bytes of a read, and reads inside a wider read. -/

namespace Sys2Proof.Machine

/-! ### Reads inside a wider read -/

/-- The bytes at `off` are the first `k` of them, then those at `off + k`, worth `2 ^ (8 * k)` times as much. -/
theorem byteSum_add (m : Memory) (off k n : Nat) :
    byteSum m off (k + n) = byteSum m off k + byteSum m (off + k) n * 2 ^ (8 * k) := by
  induction n with
  | zero => simp [byteSum]
  | succ n ih =>
    rw [← Nat.add_assoc, byteSum, byteSum, ih, Nat.mul_add 8 k n, Nat.pow_add, Nat.add_assoc off k n]
    ring

/-- The `n` bytes of the sum from byte `k` on. -/
theorem byteSum_slice (m : Memory) (off k n : Nat) {total : Nat} (h : k + n ≤ total) :
    byteSum m off total / 2 ^ (8 * k) % 2 ^ (8 * n) = byteSum m (off + k) n := by
  obtain ⟨r, rfl⟩ := Nat.exists_eq_add_of_le h
  calc byteSum m off (k + n + r) / 2 ^ (8 * k) % 2 ^ (8 * n)
      = byteSum m (off + k) (n + r) % 2 ^ (8 * n) := by
        rw [Nat.add_assoc k n r, byteSum_add, Nat.add_mul_div_right _ _ (Nat.two_pow_pos _),
          Nat.div_eq_of_lt (byteSum_lt m off k), Nat.zero_add]
    _ = byteSum m (off + k) n := by
        rw [byteSum_add, Nat.add_mul_mod_self_right, Nat.mod_eq_of_lt (byteSum_lt m (off + k) n)]

/-- Bytes `k` to `k + n - 1` of an assembled value are the value assembled at `off + k` (20_memory.md rule R63). -/
theorem assemble_slice (m : Memory) (off k n : Nat) {w u total : Nat} (hw : 8 * total ≤ w) (hu : u = 8 * n)
    (h : k + n ≤ total) : (assemble w m off total).extractLsb' (8 * k) u = assemble u m (off + k) n := by
  subst hu
  apply BitVec.eq_of_toNat_eq
  rw [BitVec.extractLsb'_toNat, assemble_toNat w m off total hw, assemble_toNat _ m (off + k) n (Nat.le_refl _),
    Nat.shiftRight_eq_div_pow]
  exact byteSum_slice m off k n h

/-- A read completes only inside the input, and answers the bytes there (rule R61). -/
theorem memRead_eq_ok {w : Nat} {s : State} {off n : Nat} {v : BitVec w} :
    memRead w s off n = .ok v ↔ off + n ≤ s.len.toNat ∧ v = assemble w s.inbuf off n := by
  obtain ⟨hlt, herr⟩ | ⟨hle, hok⟩ := memRead_cases w s off n
  · rw [herr]
    exact ⟨(nomatch ·), fun h => absurd h.1 (by omega)⟩
  · rw [hok]
    exact ⟨fun h => ⟨hle, (Except.ok.inj h).symm⟩, fun h => congrArg _ h.2.symm⟩

/-- A read whose bytes lie inside those of a wider one completes with its slice of the wider result (rule R63). -/
theorem memRead_within {w u : Nat} {s : State} {off total : Nat} {v : BitVec w} (k n : Nat) (hv : memRead w s off total = .ok v)
    (hw : 8 * total ≤ w) (hu : u = 8 * n) (h : k + n ≤ total) :
    memRead u s (off + k) n = .ok (v.extractLsb' (8 * k) u) := by
  obtain ⟨hle, rfl⟩ := memRead_eq_ok.mp hv
  exact memRead_eq_ok.mpr ⟨by omega, assemble_slice s.inbuf off k n hw hu h⟩

/-! ### The statements -/

/-- Settles O16: the bound is MemRead's own test, and no byte of the sum reaches into another. -/
theorem memReadIsLittleEndianAndBounded : Obligations.MemReadIsLittleEndianAndBounded := by
  unfold Obligations.MemReadIsLittleEndianAndBounded
  exact fun s off n _ => ⟨memRead_error, fun hle =>
    ⟨_, memRead_ok hle, fun i hi => assemble_byte (8 * n) s.inbuf off n i (Nat.le_refl _) hi⟩⟩

/-- Settles O17: each narrower read lies inside the 8-byte read. -/
theorem mixedWidthReadsAgree : Obligations.MixedWidthReadsAgree := by
  unfold Obligations.MixedWidthReadsAgree
  intro s off v hv
  have hslice (k n : Nat) (h : k + n ≤ 8) : memRead (8 * n) s (off + k) n = .ok (v.extractLsb' (8 * k) (8 * n)) :=
    memRead_within k n hv (Nat.le_refl _) rfl h
  exact ⟨hslice 0 4 (by decide), hslice 4 4 (by decide), fun i hi => hslice i 1 (by omega)⟩

end Sys2Proof.Machine
end

section
/-! SUPPORT. The statements about the encoding (30_encoding.md): the decoder and the encoder as one relation between words and
commands, the assembler's expansion of a mnemonic, and the frame of each family of commands. -/

namespace Sys2Proof.Machine

/-! ### Words and commands -/

/-- OPC selects a command exactly when it is that command's row of rule R83. -/
theorem decodeOpc_eq_ok {opc : BitVec 8} {i : Instr} : decodeOpc opc = .ok i ↔ opc = opcode i := by
  constructor
  · intro h
    unfold decodeOpc at h
    split at h
    all_goals cases h <;> rfl
  · rintro rfl
    cases i <;> rfl

/-- The decoder accepts a word by its two fields (rule R84). -/
theorem decode_eq_ok {w : BitVec 32} {i : Instr} :
    decode w = .ok i ↔ w.extractLsb' 8 24 = 0 ∧ w.extractLsb' 0 8 = opcode i := by
  unfold decode
  split
  next hrsv => exact ⟨nofun, fun h => absurd h.1 hrsv⟩
  next hrsv => rw [decodeOpc_eq_ok, and_iff_right (not_not.mp hrsv)]

/-- The opcode map written out is the table of the encoder (rule R83). -/
theorem mem_opcodeMap {opc : BitVec 8} {i : Instr} : (opc, i) ∈ Reference.opcodeMap ↔ opc = opcode i := by
  cases i <;> simp [Reference.opcodeMap, opcode]

/-- A word is its two fields, RSV above OPC (rule R81). -/
theorem word_eq_rsv_append_opc (w : BitVec 32) : w.extractLsb' 8 24 ++ w.extractLsb' 0 8 = w := by
  rw [BitVec.extractLsb'_append_extractLsb'_eq_extractLsb' (by rfl)]
  exact BitVec.extractLsb'_eq_self

/-- A word that decodes is the word of its command: RSV and OPC leave no bit open (rules R80 to R84). -/
theorem encode_of_decode {w : BitVec 32} {i : Instr} (h : decode w = .ok i) : encode i = w := by
  obtain ⟨hrsv, hopc⟩ := decode_eq_ok.mp h
  calc encode i = (0 : BitVec 24) ++ opcode i := by cases i <;> rfl
    _ = w := by rw [← hrsv, ← hopc, word_eq_rsv_append_opc]

/-- Settles O2: a word is fixed by its two fields, and so by the command it decodes to. -/
theorem decodeInvertsEncode : Obligations.DecodeInvertsEncode := by
  unfold Obligations.DecodeInvertsEncode
  exact ⟨decode_encode, fun _ _ => encode_of_decode⟩

/-- Settles O1, field by field. -/
theorem decodeFollowsTheOpcodeMap : Obligations.DecodeFollowsTheOpcodeMap := by
  unfold Obligations.DecodeFollowsTheOpcodeMap
  intro w i
  rw [decode_eq_ok, mem_opcodeMap]

/-- Settles O3: six words are those of their commands, and three are refused by RSV or by OPC. -/
theorem sampleWordsDecode : Obligations.SampleWordsDecode := by
  unfold Obligations.SampleWordsDecode
  exact ⟨decode_encode .fetch64, decode_encode .weakmixMem, decode_encode .hash17to32, decode_encode .finalize,
    decode_encode .mix64to32, decode_encode .hash32, rfl, rfl, rfl⟩

/-! ### The assembler -/

/-- A mnemonic names its own command and no earlier one (rule R87). -/
@[simp] theorem readMnemonic_mnemonicText (i : Instr) : readMnemonic (mnemonicText i).toList = some i := by
  cases i <;> decide +kernel

/-- A mnemonic alone on a line is the head of a command without operands: it has no blank, quote or comment in it, and is none of
the words that rules R87 and R88 reserve. -/
theorem assembleLine_mnemonicText (i : Instr) :
    assembleLine (mnemonicText i) = readCommand (mnemonicText i).toList [] := by
  cases i <;> decide +kernel

/-- A command with no operands is its ISSUE (rule R87). -/
theorem readCommand_nil (i : Instr) : readCommand (mnemonicText i).toList [] = some [issueOf i] := by
  rw [readCommand, readMnemonic_mnemonicText]
  rfl

/-- Operands that are read as a list are expanded as that list (rule R88). -/
theorem readCommand_operands (i : Instr) {args : List Char} {ops : List Word} (hargs : args ≠ [])
    (hops : (splitCommas args).mapM (readImm 64) = some ops) :
    readCommand (mnemonicText i).toList args = expandCommand i ops := by
  simp [readCommand, hargs, hops]

/-- OP0 to OP5 have the numbers from 0x08 on (10_state.md rule R37). -/
theorem regNumber_operandRegs {k : Nat} (h : k < operandRegs.length) : regNumber operandRegs[k] = BitVec.ofNat 8 (0x08 + k) := by
  revert k
  decide

/-- The writes of at most six operands, by position (rule R88). -/
theorem operand_writes {ops : List Word} (h : ops.length ≤ operandRegs.length) :
    (operandRegs.zip ops).map (fun p => writeOf p.1 p.2) =
      ops.mapIdx (fun k v => .write (BitVec.ofNat 8 (0x08 + k)) v) := by
  apply List.ext_getElem
  · simp [h]
  · intro k _ hk
    rw [List.length_mapIdx] at hk
    simp only [List.getElem_map, List.getElem_zip, List.getElem_mapIdx, writeOf,
      regNumber_operandRegs (Nat.lt_of_lt_of_le hk h)]

/-- Settles O5, from the reading of a mnemonic and the numbers of OP0 to OP5. -/
theorem assemblerExpandsMnemonics : Obligations.AssemblerExpandsMnemonics := by
  unfold Obligations.AssemblerExpandsMnemonics
  refine ⟨fun i => ?_, fun i ops hlen => ?_, fun i _ _ => readCommand_operands i, by decide +kernel⟩
  · rw [assembleLine_mnemonicText, readCommand_nil]
    rfl
  · rw [expandCommand, if_pos hlen, operand_writes hlen]
    rfl

/-! ### What every command keeps -/

/-- No command writes the input, the operands or the host's side of the run, whether it completes or faults (rule R82). -/
theorem exec_keepsInputs {i : Instr} {s t : State} (h : exec i s = .next t) : Reference.keepsInputs s t := by
  obtain hw | ⟨c, rfl, -⟩ := exec_next h
  · exact (writes_keeps hw).1
  · exact ⟨fun _ => rfl, rfl, rfl, rfl, rfl, rfl, rfl, rfl, rfl, rfl⟩

/-- A command leaves the fault registers, or writes nothing else (60_exceptions.md rule R262). -/
theorem exec_keepsFault_or_faultOnly {i : Instr} {s t : State} (h : exec i s = .next t) :
    Reference.keepsFault s t ∨ Reference.faultOnly s t := by
  obtain hw | ⟨c, rfl, -⟩ := exec_next h
  · exact .inl (writes_keeps hw).2.2
  · exact .inr rfl

/-! ### Frames by family -/

/-- The commands with one result register write RES0 alone (rule R82). -/
theorem writes_singleResult {i : Instr} {s t : State}
    (hi : i ∈ ([.fetch8, .fetch32, .fetch64, .rotr64, .rotr32, .shiftmix, .combine16, .hash0to16, .hash17to32, .hash33to64,
      .mur, .mix64to32] : List Instr)) (h : Writes i s t) : ∃ v, t = s.setRes0 v := by
  cases i with
  | hash0to16 | hash17to32 | hash33to64 => exact h.2
  | fetch8 | fetch32 | fetch64 | rotr64 | rotr32 | shiftmix | combine16 | mur | mix64to32 => exact h
  | weakmix | weakmixMem | blockInit | blockStep | finalize | hash64 | hash32 => exact absurd hi (by decide)

/-- WEAKMIX and WEAKMIX_MEM write RES0 and RES1 alone (rule R82). -/
theorem writes_pairResult {i : Instr} {s t : State} (hi : i = .weakmix ∨ i = .weakmixMem) (h : Writes i s t) :
    ∃ p, t = s.setResPair p := by
  obtain rfl | rfl := hi <;> exact h

/-- HASH64 and HASH32 take no fault (45_entry_points.md rules R242 and R244). -/
theorem writes_of_exec_entryPoint {i : Instr} {s t : State} (hi : i = .hash64 ∨ i = .hash32) (h : exec i s = .next t) :
    Writes i s t := by
  obtain hw | ⟨c, -, hf⟩ := exec_next h
  · exact hw
  · obtain rfl | rfl := hi <;> exact hf.elim

/-- What HASH64 and HASH32 write: RES0, SEQ and the block registers, and HASH32 RES1 too (rules R242 and R244). -/
theorem writes_entryPoint {i : Instr} {s t : State} (hi : i = .hash64 ∨ i = .hash32) (h : Writes i s t) :
    t.seq = .idle ∧ (i = .hash64 → t.res1 = s.res1) ∧ (s.len.toNat ≤ 64 → t.blk = s.blk) := by
  obtain rfl | rfl := hi <;> obtain ⟨b, v0, v1, rfl, hblk, hres1⟩ := h <;> exact ⟨rfl, hres1, hblk⟩

/-- Settles O51: such a command writes RES0 alone, or the fault registers alone. -/
theorem singleResultFrame : Obligations.SingleResultFrame := by
  unfold Obligations.SingleResultFrame
  intro i s t hi h
  refine ⟨exec_keepsInputs h, ?_⟩
  have hfault := exec_keepsFault_or_faultOnly h
  obtain hw | ⟨c, rfl, -⟩ := exec_next h
  · obtain ⟨v, rfl⟩ := writes_singleResult hi hw
    exact ⟨rfl, rfl, rfl, hfault⟩
  · exact ⟨rfl, rfl, rfl, hfault⟩

/-- Settles O52: such a command writes the two results alone, or the fault registers alone. -/
theorem pairResultFrame : Obligations.PairResultFrame := by
  unfold Obligations.PairResultFrame
  intro i s t hi h
  refine ⟨exec_keepsInputs h, ?_⟩
  have hfault := exec_keepsFault_or_faultOnly h
  obtain hw | ⟨c, rfl, -⟩ := exec_next h
  · obtain ⟨p, rfl⟩ := writes_pairResult hi hw
    exact ⟨rfl, rfl, hfault⟩
  · exact ⟨rfl, rfl, hfault⟩

/-- BLOCK_INIT keeps the results and MUL (43_block_loop.md rule R184). -/
theorem exec_blockInit_frame {s t : State} (h : exec .blockInit s = .next t) :
    t.res0 = s.res0 ∧ t.res1 = s.res1 ∧ t.blk.mul = s.blk.mul := by
  obtain ⟨-, rfl⟩ | ⟨c, rfl, -⟩ := exec_next h
  · exact ⟨rfl, rfl, rfl⟩
  · exact ⟨rfl, rfl, rfl⟩

/-- BLOCK_STEP keeps the results, END, LAST64 and MUL (rule R185). -/
theorem exec_blockStep_frame {s t : State} (h : exec .blockStep s = .next t) :
    t.res0 = s.res0 ∧ t.res1 = s.res1 ∧ t.blk.endOff = s.blk.endOff ∧ t.blk.last64 = s.blk.last64 ∧
      t.blk.mul = s.blk.mul := by
  obtain ⟨-, b, hb, rfl⟩ | ⟨c, rfl, -⟩ := exec_next h
  · exact ⟨rfl, rfl, (blockStep_keeps hb).2⟩
  · exact ⟨rfl, rfl, rfl, rfl, rfl⟩

/-- FINALIZE keeps RES1, END and LAST64 (rule R187). -/
theorem exec_finalize_frame {s t : State} (h : exec .finalize s = .next t) :
    t.res1 = s.res1 ∧ t.blk.endOff = s.blk.endOff ∧ t.blk.last64 = s.blk.last64 := by
  obtain ⟨-, r, hr, rfl⟩ | ⟨c, rfl, -⟩ := exec_next h
  · exact ⟨rfl, finalize_keeps hr⟩
  · exact ⟨rfl, rfl, rfl⟩

/-- Settles O53, from the registers each of the three writes. -/
theorem blockCommandFrame : Obligations.BlockCommandFrame := by
  unfold Obligations.BlockCommandFrame
  refine fun s t => ⟨fun h => ?_, fun h => ?_, fun h => ?_⟩
  · obtain ⟨hres0, hres1, hmul⟩ := exec_blockInit_frame h
    exact ⟨exec_keepsInputs h, hres0, hres1, hmul, exec_keepsFault_or_faultOnly h⟩
  · obtain ⟨hres0, hres1, hend, hlast, hmul⟩ := exec_blockStep_frame h
    exact ⟨exec_keepsInputs h, hres0, hres1, hend, hlast, hmul, exec_keepsFault_or_faultOnly h⟩
  · obtain ⟨hres1, hend, hlast⟩ := exec_finalize_frame h
    exact ⟨exec_keepsInputs h, hres1, hend, hlast, exec_keepsFault_or_faultOnly h⟩

/-- Settles O54: the entry points take no fault, and write the block registers only for LEN above 64. -/
theorem entryPointFrame : Obligations.EntryPointFrame := by
  unfold Obligations.EntryPointFrame
  intro i s t hi h
  have hw := writes_of_exec_entryPoint hi h
  obtain ⟨hinputs, -, hfault⟩ := writes_keeps hw
  exact ⟨hinputs, hfault, writes_entryPoint hi hw⟩

end Sys2Proof.Machine
end

section
/-! SUPPORT. The statements about the byte readers (40_byte_readers.md): a command that reads INBUF once, and which commands can
read past the input. -/

namespace Sys2Proof.Machine

/-! ### A command with one read of INBUF -/

section
variable {w off n : Nat} {s : State} (f : BitVec w → State)

/-- Inside the input the command completes with the bytes there (20_memory.md rule R61). -/
theorem complete_memRead_ok (h : off + n ≤ s.len.toNat) :
    complete s (do let v ← memRead w s off n; .ok (f v)) = .next (f (assemble w s.inbuf off n)) := by
  rw [memRead_ok h]
  rfl

/-- Past the input it takes OOB_READ (60_exceptions.md rule R262). -/
theorem complete_memRead_error (h : s.len.toNat < off + n) :
    complete s (do let v ← memRead w s off n; .ok (f v)) = .next (s.raiseFault (.oobRead off n)) := by
  rw [memRead_error h]
  rfl

end

/-- OOB_READ in the fault registers (rule R261): WIDTH above CODE 4, and the offset. -/
theorem raiseFault_oobRead (s : State) (off : Nat) {n : Nat} (hn : n < 256) :
    s.raiseFault (.oobRead off n) =
      { s with faultCause := BitVec.ofNat 64 (256 * n + 4), faultInfo := BitVec.ofNat 64 off } := by
  have hcause : (BitVec.ofNat 8 n ++ 4#8).setWidth 64 = BitVec.ofNat 64 (256 * n + 4) := by
    apply BitVec.eq_of_toNat_eq
    rw [BitVec.toNat_setWidth, BitVec.toNat_append, ← Nat.shiftLeft_add_eq_or_of_lt (4#8).isLt, Nat.shiftLeft_eq]
    simp only [BitVec.toNat_ofNat]
    omega
  exact congrArg (fun cause => { s with faultCause := cause, faultInfo := BitVec.ofNat 64 off }) hcause

/-- A byte reader past the input: the offset in FAULT_INFO is OP0, all 64 bits of it. -/
theorem raiseFault_oobRead_op0 (s : State) {n : Nat} (hn : n < 256) :
    s.raiseFault (.oobRead (opOffset s) n) = { s with faultCause := BitVec.ofNat 64 (256 * n + 4), faultInfo := s.op0 } := by
  rw [raiseFault_oobRead s _ hn, opOffset, BitVec.ofNat_toNat, BitVec.setWidth_eq]

/-- The upper half of a zero-extended half is 0 (10_state.md rule R25). -/
theorem setWidth_half_high (h : Half) : (h.setWidth 64).extractLsb' 32 32 = 0 := by
  rw [BitVec.extractLsb'_setWidth_of_le (by decide)]
  ext j hj
  simp

/-! ### Who reads past the input -/

/-- In LOOP the whole chunk at S lies inside the input (43_block_loop.md rule R189). -/
theorem blockStep_of_blockInv {s : State} (hs : s.blockInv) (hq : s.seq = .loop) :
    blockStep s s.blk = .ok (Reference.step s.input s.blk) := by
  obtain ⟨hlen, hend, -, hmod, hlt⟩ := hs.1 hq
  exact blockStep_ok (by omega)

/-- In TAIL the final window is the last 64 bytes of the input (rule R189). -/
theorem finalize_of_blockInv {s : State} (hs : s.blockInv) (hq : s.seq = .tail) :
    finalize s s.blk = .ok (Reference.last s.input s.blk, Reference.lastHash (Reference.last s.input s.blk)) := by
  obtain ⟨hlen, -, hlast, -⟩ := hs.2 hq
  exact finalize_ok (by omega)

/-- CODE 4 is OOB_READ's alone (60_exceptions.md rule R261). -/
theorem code_eq_four {c : Trap} (h : c.code = 4) : ∃ off n, c = .oobRead off n := by
  cases c with
  | oobRead off n => exact ⟨off, n, rfl⟩
  | illegalCmd w | sequence w | bandLen len => simp [Trap.code] at h

/-- A command whose offset does not come from the host takes no OOB_READ: the bands and the entry points make no read that can
fail, and the block commands read inside the span that the invariant gives them (rules R106, R189 and R245). -/
theorem faults_oobRead {i : Instr} {s : State} {off n : Nat} (hs : s.blockInv) (h : Faults i s (.oobRead off n)) :
    i = .fetch8 ∨ i = .fetch32 ∨ i = .fetch64 ∨ i = .weakmixMem := by
  cases i with
  | fetch8 | fetch32 | fetch64 | weakmixMem => decide
  | hash0to16 | hash17to32 | hash33to64 | blockInit => exact nomatch h.2
  | blockStep =>
    obtain ⟨-, hc⟩ | ⟨hq, herr, -⟩ := h
    · exact nomatch hc
    · exact nomatch (blockStep_of_blockInv hs hq).symm.trans herr
  | finalize =>
    obtain ⟨-, hc⟩ | ⟨hq, herr, -⟩ := h
    · exact nomatch hc
    · exact nomatch (finalize_of_blockInv hs hq).symm.trans herr
  | _ => exact h.elim

/-! ### The statements -/

/-- Settles O18: the one byte at OP0, or the read's own fault. -/
theorem fetch8ReadsOneByte : Obligations.Fetch8ReadsOneByte := by
  unfold Obligations.Fetch8ReadsOneByte
  refine ⟨decode_encode .fetch8, fun s _ => ⟨fun hle => ?_, fun hlt => ?_⟩⟩
  · rw [← assemble_one]
    exact complete_memRead_ok (fun b => s.setRes0 (b.setWidth 64)) hle
  · exact (complete_memRead_error (fun b => s.setRes0 (b.setWidth 64)) hlt).trans
      (congrArg _ (raiseFault_oobRead_op0 s (by decide)))

/-- Settles O19: the four bytes at OP0, zero-extended, or the read's own fault. -/
theorem fetch32ReadsFourBytes : Obligations.Fetch32ReadsFourBytes := by
  unfold Obligations.Fetch32ReadsFourBytes
  refine ⟨decode_encode .fetch32, fun s _ => ⟨fun hle => ?_, fun hlt => ?_⟩⟩
  · refine ⟨_, complete_memRead_ok s.setRes0Half hle, fun i hi => ?_, setWidth_half_high _⟩
    rw [BitVec.extractLsb'_setWidth_of_le (by omega)]
    exact assemble_byte 32 s.inbuf _ 4 i (Nat.le_refl _) hi
  · exact (complete_memRead_error s.setRes0Half hlt).trans (congrArg _ (raiseFault_oobRead_op0 s (by decide)))

/-- Settles O20: the eight bytes at OP0, or the read's own fault. -/
theorem fetch64ReadsEightBytes : Obligations.Fetch64ReadsEightBytes := by
  unfold Obligations.Fetch64ReadsEightBytes
  refine ⟨decode_encode .fetch64, fun s _ => ⟨fun hle => ?_, fun hlt => ?_⟩⟩
  · exact ⟨_, complete_memRead_ok s.setRes0 hle, fun i hi => assemble_byte 64 s.inbuf _ 8 i (Nat.le_refl _) hi⟩
  · exact (complete_memRead_error s.setRes0 hlt).trans (congrArg _ (raiseFault_oobRead_op0 s (by decide)))

/-- Settles O50: a command that completes leaves CODE 0, and one that faults takes a fault of its own. -/
theorem onlyHostOffsetsReadOutOfBounds : Obligations.OnlyHostOffsetsReadOutOfBounds := by
  unfold Obligations.OnlyHostOffsetsReadOutOfBounds
  intro i s t hrun hinv h hcode
  obtain hw | ⟨c, rfl, hf⟩ := exec_next h
  · obtain ⟨-, -, hcause, -⟩ := writes_keeps hw
    have hhalt : t.halted = true := (halted_iff t).mpr (by rw [hcode]; decide)
    rw [halted_congr hcause, hrun] at hhalt
    exact absurd hhalt (by decide)
  · obtain ⟨off, n, rfl⟩ := code_eq_four ((raiseFault_causeCode s c).symm.trans hcode)
    exact faults_oobRead hinv hf

end Sys2Proof.Machine
end

section
/-! SUPPORT. The statements about the mixers (41_mixers.md): the rotations and `shift_mix` bit by bit, the operand slices of the
rotate commands, WEAKMIX_MEM, and the commands that take no fault. -/

namespace Sys2Proof.Machine

/-! ### Rotations -/

/-- Bit `i` of a right rotation by `r` is bit `(i + r) mod w` (41_mixers.md rule R120). -/
theorem getLsbD_rotateRight_eq_mod {w r i : Nat} (v : BitVec w) (hr : r < w) (hi : i < w) :
    (v.rotateRight r).getLsbD i = v.getLsbD ((i + r) % w) := by
  rw [BitVec.getLsbD_rotateRight_of_lt hr]
  by_cases h : i < w - r
  · rw [Nat.mod_eq_of_lt (by omega : i + r < w), Nat.add_comm]
    simp [h]
  · rw [Nat.mod_eq_sub_mod (by omega : w ≤ i + r), Nat.mod_eq_of_lt (by omega : i + r - w < w),
      show i + r - w = i - (w - r) by omega]
    simp [h, hi]

/-- Positions moved by `s` and then by the rest of a turn are back where they were. -/
theorem turn_positions {w s i : Nat} (hs : s < w) (hi : i < w) : ((i + (w - s) % w) % w + s) % w = i := by
  rw [Nat.mod_add_mod]
  obtain rfl | hpos := Nat.eq_zero_or_pos s
  · simp [Nat.mod_eq_of_lt hi]
  · rw [Nat.mod_eq_of_lt (by omega : w - s < w), show i + (w - s) + s = i + w by omega, Nat.add_mod_right,
      Nat.mod_eq_of_lt hi]

/-- A rotation is undone by the rest of a turn (rule R126). -/
theorem rotateRight_undo {w s : Nat} (v : BitVec w) (hs : s < w) : (v.rotateRight s).rotateRight ((w - s) % w) = v := by
  apply BitVec.eq_of_getLsbD_eq
  intro i hi
  have hw : 0 < w := by omega
  rw [getLsbD_rotateRight_eq_mod _ (Nat.mod_lt _ hw) hi, getLsbD_rotateRight_eq_mod _ hs (Nat.mod_lt _ hw),
    turn_positions hs hi]

theorem rotr64_undo (v : Word) {s : Nat} (hs : s < 64) : rotr64 (rotr64 v s) ((64 - s) % 64) = v := by
  rw [rotr64_eq_rotateRight _ _ (Nat.mod_lt _ (by decide)), rotr64_eq_rotateRight _ _ hs, rotateRight_undo v hs]

theorem rotr32_undo (v : Half) {s : Nat} (hs : s < 32) : rotr32 (rotr32 v s) ((32 - s) % 32) = v := by
  rw [rotr32_eq_rotateRight _ _ (Nat.mod_lt _ (by decide)), rotr32_eq_rotateRight _ _ hs, rotateRight_undo v hs]

/-! ### Operand slices -/

/-- The low `n` bits are the value modulo `2 ^ n`. -/
theorem toNat_extractLsb'_zero (v : Word) (n : Nat) : (v.extractLsb' 0 n).toNat = v.toNat % 2 ^ n := by
  rw [BitVec.extractLsb'_toNat, Nat.shiftRight_zero]

/-- OP1[5:0] is OP1 modulo 64 (rule R130). -/
theorem opShift64_eq_mod (s : State) : opShift64 s = s.op1.toNat % 64 := toNat_extractLsb'_zero s.op1 6

/-- OP1[4:0] is OP1 modulo 32 (rule R131). -/
theorem opShift32_eq_mod (s : State) : opShift32 s = s.op1.toNat % 32 := toNat_extractLsb'_zero s.op1 5

/-- OP0[31:0] is OP0 truncated (rule R131). -/
theorem opLow0_eq_setWidth (s : State) : opLow0 s = s.op0.setWidth 32 := (BitVec.setWidth_eq_extractLsb' (by decide)).symm

/-! ### `shift_mix` and `combine16` -/

/-- `shift_mix` is its own inverse: shifted by 47 twice, no bit is left (rule R126). -/
theorem shiftMix_shiftMix (v : Word) : shiftMix (shiftMix v) = v := by
  have hgone : v >>> 47 >>> 47 = 0#64 := by
    rw [← BitVec.shiftRight_add, BitVec.ushiftRight_eq_zero (by decide)]
  calc shiftMix (shiftMix v)
      = v ^^^ v >>> 47 ^^^ (v >>> 47 ^^^ v >>> 47 >>> 47) := by
        simp only [shiftMix, BitVec.ushiftRight_xor_distrib]
    _ = v := by rw [hgone, BitVec.xor_zero, BitVec.xor_assoc, BitVec.xor_self, BitVec.xor_zero]

/-- `shift_mix` keeps bits [63:47], above which the shifted value has no bit (rule R126). -/
theorem shiftMix_high (v : Word) : (shiftMix v).extractLsb' 47 17 = v.extractLsb' 47 17 := by
  have hclear : (v >>> 47).extractLsb' 47 17 = 0#17 := by
    apply BitVec.eq_of_getLsbD_eq
    intro i hi
    have hpast : v.getLsbD (47 + (47 + i)) = false := BitVec.getLsbD_of_ge _ _ (by omega)
    simp [hpast]
  rw [shiftMix, BitVec.extractLsb'_xor, hclear, BitVec.xor_zero]

@[simp] theorem shiftMix_zero : shiftMix 0#64 = 0#64 := by decide

/-- A zero multiplier gives 0: the last round multiplies by it (rule R126). -/
theorem combine16_zero_mul (u v : Word) : combine16 u v 0 = 0 := BitVec.mul_zero

/-- Two zero words give 0: each round keeps 0 (rule R126). -/
theorem combine16_zero_words (mul : Word) : combine16 0 0 mul = 0 := by
  simp [combine16]

/-! ### WEAKMIX_MEM -/

/-- WEAKMIX_MEM over a span inside the input (rule R135). -/
theorem exec_weakmixMem_ok {s : State} (h : s.op0.toNat + 32 ≤ s.len.toNat) :
    exec .weakmixMem s = .next (s.setResPair (Reference.weakMixAt s.input s.op0.toNat s.op1 s.op2)) := by
  show execWeakmixMem s = _
  rw [execWeakmixMem, opOffset, weakMixMem_ok _ _ h]
  rfl

/-- WEAKMIX_MEM whose read `k` is the first that fails (rule R135). -/
theorem exec_weakmixMem_error {s : State} {k : Nat} (hk : k < 4) (h : s.len.toNat < s.op0.toNat + 8 * k + 8)
    (hj : ∀ j, j < k → s.op0.toNat + 8 * j + 8 ≤ s.len.toNat) :
    exec .weakmixMem s = .next (s.raiseFault (.oobRead (s.op0.toNat + 8 * k) 8)) := by
  show execWeakmixMem s = _
  rw [execWeakmixMem, opOffset, weakMixMem_error _ _ hk h hj]
  rfl

/-! ### The commands without exceptions -/

/-- These commands have no fault to take (rules R130 to R134, R230, R231, R242 and R244). -/
theorem not_faults_of_no_exception {i : Instr} {s : State} {c : Trap}
    (hi : i ∈ ([.rotr64, .rotr32, .shiftmix, .combine16, .weakmix, .mur, .mix64to32, .hash64, .hash32] : List Instr)) :
    ¬Faults i s c := by
  intro hf
  cases i with
  | rotr64 | rotr32 | shiftmix | combine16 | weakmix | mur | mix64to32 | hash64 | hash32 => exact hf
  | fetch8 | fetch32 | fetch64 | weakmixMem | hash0to16 | hash17to32 | hash33to64 | blockInit | blockStep | finalize =>
    exact absurd hi (by decide)

/-! ### The statements -/

/-- Settles O21: the first part is rule R120's own text, the second is the library's rotation bit by bit. -/
theorem rotr64MovesEachBit : Obligations.Rotr64MovesEachBit := by
  unfold Obligations.Rotr64MovesEachBit
  intro v s hs
  refine ⟨rfl, fun i hi => ?_⟩
  rw [rotr64_eq_rotateRight v s (by omega), getLsbD_rotateRight_eq_mod v (by omega) hi]

/-- Settles O22: the shift amount is below 64, where `rotr64` is the library's rotation. -/
theorem rotr64RotatesByTheLowSixBits : Obligations.Rotr64RotatesByTheLowSixBits := by
  unfold Obligations.Rotr64RotatesByTheLowSixBits
  refine ⟨decode_encode .rotr64, fun s _ => ?_⟩
  have hlt : s.op1.toNat % 64 < 64 := Nat.mod_lt _ (by decide)
  show execRotr64 s = _
  rw [execRotr64, opShift64_eq_mod, rotr64_eq_rotateRight _ _ hlt]
  rfl

/-- Settles O23: the shift amount is below 32, where `rotr32` is the library's rotation. -/
theorem rotr32RotatesByTheLowFiveBits : Obligations.Rotr32RotatesByTheLowFiveBits := by
  unfold Obligations.Rotr32RotatesByTheLowFiveBits
  refine ⟨decode_encode .rotr32, fun s _ => ?_⟩
  have hlt : s.op1.toNat % 32 < 32 := Nat.mod_lt _ (by decide)
  show execRotr32 s = _
  rw [execRotr32, opShift32_eq_mod, opLow0_eq_setWidth, rotr32_eq_rotateRight _ _ hlt]
  rfl

/-- Settles O24: the result is `shift_mix` as rule R122 writes it. -/
theorem shiftmixXorsTheHighBitsDown : Obligations.ShiftmixXorsTheHighBitsDown := by
  unfold Obligations.ShiftmixXorsTheHighBitsDown
  exact ⟨decode_encode .shiftmix, fun _ _ => rfl⟩

/-- Settles O25: the result is `combine16` as rule R123 writes it, with `shift_mix` written out. -/
theorem combine16IsThreeRounds : Obligations.Combine16IsThreeRounds := by
  unfold Obligations.Combine16IsThreeRounds
  exact ⟨decode_encode .combine16, fun _ _ => rfl⟩

/-- Settles O26: the two lanes are those of the closed form. -/
theorem weakmixGivesTwoLanes : Obligations.WeakmixGivesTwoLanes := by
  unfold Obligations.WeakmixGivesTwoLanes
  refine ⟨decode_encode .weakmix, fun s _ => ?_⟩
  show execWeakmix s = _
  rw [execWeakmix, weakMix_eq_closed]
  rfl

/-- Settles O27: the four reads succeed together, or the first that fails is the fault. -/
theorem weakmixMemReadsAThirtyTwoByteSpan : Obligations.WeakmixMemReadsAThirtyTwoByteSpan := by
  unfold Obligations.WeakmixMemReadsAThirtyTwoByteSpan
  exact ⟨decode_encode .weakmixMem, fun s _ => ⟨exec_weakmixMem_ok, fun k hk hlt hle =>
    (exec_weakmixMem_error hk hlt hle).trans (congrArg _ (raiseFault_oobRead s _ (by decide)))⟩⟩

/-- Settles O28, from a lemma for each law. -/
theorem mixerLaws : Obligations.MixerLaws := by
  unfold Obligations.MixerLaws
  refine ⟨fun v s hs => rotr64_undo v (by omega), fun v s hs => rotr32_undo v (by omega),
    fun v => ⟨shiftMix_shiftMix v, shiftMix_high v⟩, combine16_zero_mul, combine16_zero_words, by decide, ?_⟩
  intro w x y z a b
  rw [weakMix_eq_closed]
  rfl

/-- Settles O59: with no fault to take, such a command writes what it may write, and the fault registers are not among it. -/
theorem commandsWithoutExceptionComplete : Obligations.CommandsWithoutExceptionComplete := by
  unfold Obligations.CommandsWithoutExceptionComplete
  intro i s hi hrun
  obtain ⟨t, ht, hw⟩ | ⟨c, -, hf⟩ := exec_cases i s
  · obtain ⟨hinputs, -, hfault⟩ := writes_keeps hw
    exact ⟨t, ht, (halted_congr hfault.1).trans hrun, hfault, hinputs⟩
  · exact absurd hf (not_faults_of_no_exception hi)

end Sys2Proof.Machine
end

section
/-! SUPPORT. The statements about the length bands A, B and C (42_length_bands.md): a command that checks its band before it reads
INBUF, and the closed form of each band's hash. -/

namespace Sys2Proof.Machine

/-! ### A command with a band check -/

/-- BAND_LEN in the fault registers (60_exceptions.md rule R261): WIDTH 0 above CODE 3, and LEN. -/
theorem raiseFault_bandLen (s : State) : s.raiseFault (.bandLen s.len) = { s with faultCause := 3, faultInfo := s.len } := by
  have hcause : (0#8 ++ 3#8).setWidth 64 = 3#64 := by decide
  exact congrArg (fun cause => { s with faultCause := cause, faultInfo := s.len }) hcause

section
variable {α : Type} {s : State} {outside : Prop} [Decidable outside]

/-- Inside its band the command completes with what it computes (rule R262). -/
theorem complete_inside_band {r : Except Trap α} {a : α} (f : α → State) (hin : ¬outside) (hr : r = .ok a) :
    complete s (if outside then .error (.bandLen s.len) else r.map f) = .next (f a) := by
  rw [if_neg hin, hr]
  rfl

/-- Outside its band it takes BAND_LEN, whatever it would have computed (rule R269). -/
theorem complete_outside_band (r : Except Trap State) (hout : outside) :
    complete s (if outside then .error (.bandLen s.len) else r) = .next { s with faultCause := 3, faultInfo := s.len } := by
  rw [if_pos hout, complete_error, raiseFault_bandLen]

end

/-! ### The statements -/

/-- Settles O29: band A's sub-cases all read inside an input of at most 16 bytes. -/
theorem hash0to16HashesBandA : Obligations.Hash0to16HashesBandA := by
  unfold Obligations.Hash0to16HashesBandA
  exact ⟨decode_encode .hash0to16, fun s _ =>
    ⟨fun hin => complete_inside_band s.setRes0 (Nat.not_lt.mpr hin) (hash0to16_ok hin), complete_outside_band _⟩⟩

/-- Settles O30: band B's reads lie inside an input of 17 to 32 bytes. -/
theorem hash17to32HashesBandB : Obligations.Hash17to32HashesBandB := by
  unfold Obligations.Hash17to32HashesBandB
  exact ⟨decode_encode .hash17to32, fun s _ =>
    ⟨fun ⟨h17, h32⟩ => complete_inside_band s.setRes0 (by omega) (hash17to32_ok h17 h32), complete_outside_band _⟩⟩

/-- Settles O31: band C's reads lie inside an input of 33 to 64 bytes. -/
theorem hash33to64HashesBandC : Obligations.Hash33to64HashesBandC := by
  unfold Obligations.Hash33to64HashesBandC
  exact ⟨decode_encode .hash33to64, fun s _ =>
    ⟨fun ⟨h33, h64⟩ => complete_inside_band s.setRes0 (by omega) (hash33to64_ok h33 h64), complete_outside_band _⟩⟩

end Sys2Proof.Machine
end

section
/-! SUPPORT. The statements about the block loop (43_block_loop.md): what opens a sequence, moves it on and closes it, and how many
steps it takes. -/

namespace Sys2Proof.Machine

/-! ### The block commands -/

/-- SEQUENCE in the fault registers (60_exceptions.md rule R261): WIDTH 0 above CODE 2, and the word. -/
theorem raiseFault_sequence (s : State) (w : BitVec 32) :
    s.raiseFault (.sequence w) = { s with faultCause := 2, faultInfo := w.setWidth 64 } := by
  have hcause : (0#8 ++ 2#8).setWidth 64 = 2#64 := by decide
  exact congrArg (fun cause => { s with faultCause := cause, faultInfo := w.setWidth 64 }) hcause

/-- BLOCK_INIT on an input of at least 65 bytes (43_block_loop.md rule R184). -/
theorem exec_blockInit_ok {s : State} (h : 65 ≤ s.len.toNat) :
    exec .blockInit s = .next { s with blk := Reference.start s.input s.blk, seq := .loop } :=
  complete_inside_band (fun b => (s.setBlk b).setSeq .loop) (Nat.not_lt.mpr h) (blockInit_ok h)

/-- BLOCK_STEP in LOOP, where its chunk lies inside the input (rule R185). -/
theorem exec_blockStep_ok {s : State} (hq : s.seq = .loop) (hb : blockStep s s.blk = .ok (Reference.step s.input s.blk)) :
    exec .blockStep s = .next { s with
      blk := Reference.step s.input s.blk, seq := if s.blk.s + 64 = s.blk.endOff then .tail else .loop } :=
  execBlockStep_loop hq hb (step_s s.input s.blk)

/-! ### A whole sequence -/

/-- Where a sequence stands `k` steps after BLOCK_INIT, read as numbers: nothing wraps (10_state.md rules R28 to R31). -/
theorem afterSteps_offsets {s : State} {k : Nat} (hk : k ≤ (s.len.toNat - 1) / 64) :
    (Reference.afterSteps s.input s.blk k).s.toNat = 64 * k ∧
      (Reference.afterSteps s.input s.blk k).endOff.toNat = (s.len.toNat - 1) / 64 * 64 ∧
      (Reference.afterSteps s.input s.blk k).last64.toNat = s.len.toNat - 64 ∧
      (Reference.afterSteps s.input s.blk k).mul = s.blk.mul := by
  rw [← State.input_length] at hk
  obtain ⟨hs, hend, hlast, hmul⟩ := afterSteps_position s.input s.blk k (by simpa using s.len.isLt) hk
  exact ⟨hs, (congrArg BitVec.toNat hend).trans (start_endOff_toNat s s.blk),
    (congrArg BitVec.toNat hlast).trans (start_last64_toNat s s.blk), hmul⟩

/-- S reaches END with step `(LEN - 1) div 64` and not before (43_block_loop.md rule R186). -/
theorem afterSteps_s_eq_endOff {s : State} {k : Nat} (hk : k ≤ (s.len.toNat - 1) / 64) :
    (Reference.afterSteps s.input s.blk k).s = (Reference.afterSteps s.input s.blk k).endOff ↔
      k = (s.len.toNat - 1) / 64 := by
  obtain ⟨hs, hend, -, -⟩ := afterSteps_offsets hk
  rw [← BitVec.toNat_inj, hs, hend]
  omega

/-- The state that BLOCK_INIT and `k` BLOCK_STEPs lead to from `s`. -/
def State.afterSteps (s : State) (k : Nat) : State :=
  { s with blk := Reference.afterSteps s.input s.blk k, seq := if k = (s.len.toNat - 1) / 64 then .tail else .loop }

/-- No step of it changes the input. -/
@[simp] theorem State.afterSteps_input (s : State) (k : Nat) : (s.afterSteps k).input = s.input := rfl

/-- Right after BLOCK_INIT a step is due. -/
theorem exec_blockInit_afterSteps {s : State} (h : 65 ≤ s.len.toNat) : exec .blockInit s = .next (s.afterSteps 0) := by
  have hdue : ¬0 = (s.len.toNat - 1) / 64 := by omega
  rw [exec_blockInit_ok h, State.afterSteps, if_neg hdue, afterSteps_zero]

/-- Each step that is due finds LOOP and its chunk inside the input (rules R185 and R189). -/
theorem exec_blockStep_afterSteps {s : State} {k : Nat} (hk : k < (s.len.toNat - 1) / 64) :
    exec .blockStep (s.afterSteps k) = .next (s.afterSteps (k + 1)) := by
  have hloop : (s.afterSteps k).seq = .loop := if_neg (Nat.ne_of_lt hk)
  have hchunk : (s.afterSteps k).blk.s.toNat + 64 ≤ (s.afterSteps k).len.toNat := by
    obtain ⟨hs, -⟩ := afterSteps_offsets (Nat.le_of_lt hk)
    show (Reference.afterSteps s.input s.blk k).s.toNat + 64 ≤ s.len.toNat
    omega
  have hdone := afterSteps_s_eq_endOff (s := s) (k := k + 1) hk
  rw [afterSteps_succ, step_s, step_endOff] at hdone
  rw [exec_blockStep_ok hloop (blockStep_ok hchunk), State.afterSteps_input]
  simp only [State.afterSteps, afterSteps_succ, hdone]

/-- A list of commands goes on from the state its first one answers. -/
theorem execAll_cons {i : Instr} {s t : State} (rest : List Instr) (h : exec i s = .next t) :
    Reference.execAll (i :: rest) s = Reference.execAll rest t := by
  rw [Reference.execAll, h]

/-- `n` more steps, while that many are due. -/
theorem execAll_blockSteps {s : State} (n k : Nat) (h : k + n ≤ (s.len.toNat - 1) / 64) :
    Reference.execAll (List.replicate n .blockStep) (s.afterSteps k) = .next (s.afterSteps (k + n)) := by
  induction n generalizing k with
  | zero => rfl
  | succ n ih =>
    rw [List.replicate_succ, execAll_cons _ (exec_blockStep_afterSteps (by omega)), ih (k + 1) (by omega),
      Nat.add_right_comm, Nat.add_assoc]

/-! ### The statements -/

/-- Settles O33: the only read is that of the first 8 bytes, and the check of LEN comes before it. -/
theorem blockInitOpensASequence : Obligations.BlockInitOpensASequence := by
  unfold Obligations.BlockInitOpensASequence
  exact ⟨decode_encode .blockInit, fun s _ => ⟨exec_blockInit_ok, complete_outside_band _⟩⟩

/-- Settles O34: the invariant puts the chunk at S inside the input, so that no read fails. -/
theorem blockStepConsumesAChunk : Obligations.BlockStepConsumesAChunk := by
  unfold Obligations.BlockStepConsumesAChunk
  exact ⟨decode_encode .blockStep, fun s _ =>
    ⟨fun hq hs => exec_blockStep_ok hq (blockStep_of_blockInv hs hq),
      fun hq => (execBlockStep_order hq).trans (congrArg _ (raiseFault_sequence s _))⟩⟩

/-- Settles O35: the invariant makes LAST64 the offset of the last 64 bytes, so that no read fails. -/
theorem finalizeClosesTheSequence : Obligations.FinalizeClosesTheSequence := by
  unfold Obligations.FinalizeClosesTheSequence
  exact ⟨decode_encode .finalize, fun s _ =>
    ⟨fun hq hs => execFinalize_tail hq (finalize_of_blockInv hs hq),
      fun hq => (execFinalize_order hq).trans (congrArg _ (raiseFault_sequence s _))⟩⟩

/-- Settles O36: BLOCK_INIT leads to the state after no step, and each step due to the next such state. -/
theorem blockStepCount : Obligations.BlockStepCount := by
  unfold Obligations.BlockStepCount
  intro s k _ h65 hk
  refine ⟨?_, afterSteps_offsets hk⟩
  rw [execAll_cons _ (exec_blockInit_afterSteps h65), execAll_blockSteps k 0 (by omega), Nat.zero_add]
  rfl

end Sys2Proof.Machine
end

section
/-! SUPPORT. The statements about the 32-bit fold (44_fold32.md): what a half rotation does to the halves, the laws of `mur` and
`mix64to32`, and the two fold commands. -/

namespace Sys2Proof.Machine

/-! ### Halves -/

/-- A slice of a rotation that does not wrap is the slice `r` positions up (41_mixers.md rule R120). -/
theorem extractLsb'_rotateRight {w r i n : Nat} (v : BitVec w) (hr : r < w) (hin : i + n ≤ w) (hwrap : (i + r) % w + n ≤ w) :
    (v.rotateRight r).extractLsb' i n = v.extractLsb' ((i + r) % w) n := by
  apply BitVec.eq_of_getLsbD_eq
  intro j hj
  have hpos : (i + j + r) % w = (i + r) % w + j := by
    rw [Nat.add_right_comm, ← Nat.mod_add_mod, Nat.mod_eq_of_lt (by omega : (i + r) % w + j < w)]
  simp only [BitVec.getLsbD_extractLsb', hj, decide_true, Bool.true_and]
  rw [getLsbD_rotateRight_eq_mod v hr (by omega), hpos]

/-- OP1[31:0] is OP1 truncated (44_fold32.md rule R230). -/
theorem opLow1_eq_setWidth (s : State) : opLow1 s = s.op1.setWidth 32 := (BitVec.setWidth_eq_extractLsb' (by decide)).symm

/-! ### The fold in each order -/

theorem mix64to32With_hiLo (x : Word) : mix64to32With .hiLo x = mur (x.extractLsb' 32 32) (x.extractLsb' 0 32) := rfl

theorem mix64to32With_loHi (x : Word) : mix64to32With .loHi x = mur (x.extractLsb' 0 32) (x.extractLsb' 32 32) := rfl

/-- A zero first argument leaves only the last two lines of `mur` (rule R222): `a3` is 0. -/
theorem mur_zero_left (h : Half) : mur 0 h = h.rotateRight 19 * 5 + 0xe6546b64 := by
  have ha3 : rotr32 (0 * c1) 17 * c2 = 0#32 := by decide
  rw [mur, ha3, BitVec.xor_zero, rotr32_eq_rotateRight h 19 (by decide)]

/-- Both halves of 0 are 0, so that the order does not matter (rule R222). -/
theorem mix64to32With_zero (o : MixOrder) : mix64to32With o 0 = 0xe6546b64 := by
  have hmur : mur 0 0 = 0xe6546b64 := mur_zero_left 0
  cases o with
  | hiLo => exact hmur
  | loHi => exact hmur

/-- The order does not matter where the halves agree (rule R222). -/
theorem mix64to32With_order_irrel {x : Word} (h : x.extractLsb' 32 32 = x.extractLsb' 0 32) :
    mix64to32With .hiLo x = mix64to32With .loHi x := by
  rw [mix64to32With_hiLo, mix64to32With_loHi, h]

/-- One order is the other on the word with its halves swapped (rule R222). -/
theorem mix64to32With_loHi_eq_hiLo_swap (x : Word) : mix64to32With .loHi x = mix64to32With .hiLo (x.rotateRight 32) := by
  have hhi : (x.rotateRight 32).extractLsb' 32 32 = x.extractLsb' 0 32 :=
    extractLsb'_rotateRight x (by decide) (by decide) (by decide)
  have hlo : (x.rotateRight 32).extractLsb' 0 32 = x.extractLsb' 32 32 :=
    extractLsb'_rotateRight x (by decide) (by decide) (by decide)
  rw [mix64to32With_hiLo, mix64to32With_loHi, hhi, hlo]

/-! ### The statements -/

/-- Settles O39, from a lemma for each law. -/
theorem foldLaws : Obligations.FoldLaws := by
  unfold Obligations.FoldLaws
  exact ⟨mix64to32With_zero, mur_zero_left, fun _ => mix64to32With_order_irrel, mix64to32With_loHi_eq_hiLo_swap⟩

/-- Settles O37: `mur` has its closed form, on the operands truncated. -/
theorem murCombinesTwoHalves : Obligations.MurCombinesTwoHalves := by
  unfold Obligations.MurCombinesTwoHalves
  refine ⟨decode_encode .mur, fun s _ => ?_⟩
  show execMur s = _
  rw [execMur, mur_eq_closed, opLow0_eq_setWidth, opLow1_eq_setWidth]
  rfl

/-- Settles O38: in either order the fold is `mur` of the two halves, and `mur` has its closed form. -/
theorem mix64to32FoldsTheHalves : Obligations.Mix64to32FoldsTheHalves := by
  unfold Obligations.Mix64to32FoldsTheHalves
  refine ⟨decode_encode .mix64to32, fun s _ => ?_⟩
  show execMix64to32 s = _
  rw [execMix64to32, mix64to32]
  cases Config.mixOrder with
  | hiLo => rw [mix64to32With_hiLo, mur_eq_closed]; rfl
  | loHi => rw [mix64to32With_loHi, mur_eq_closed]; rfl

end Sys2Proof.Machine
end

section
/-! SUPPORT. The statements about the entry points (45_entry_points.md): the state HASH64 and HASH32 leave, the hash of each length
band, and the same hash by the band commands and by the block commands. -/

namespace Sys2Proof.Machine

/-! ### What the entry points leave -/

/-- The state HASH64 leaves (45_entry_points.md rule R242). -/
def State.afterHash64 (s : State) : State := { s with
  res0 := Reference.hash64 s.input, seq := .idle,
  blk := if s.len.toNat ≤ 64 then s.blk else Reference.longRegs s.input s.blk }

/-- The state HASH32 leaves: that of HASH64, with the hash in RES1 and its fold in RES0 (rule R244). -/
def State.afterHash32 (s : State) : State := { s.afterHash64 with
  res0 := (Reference.mix64to32 Config.mixOrder (Reference.hash64 s.input)).setWidth 64, res1 := Reference.hash64 s.input }

/-- The block's own fold in closed form (44_fold32.md rule R221). -/
theorem mix64to32_eq_closed (x : Word) : mix64to32 x = Reference.mix64to32 Config.mixOrder x := mix64to32With_eq_closed _ x

/-- HASH64 faults on no input (rule R245). -/
theorem exec_hash64 (s : State) : exec .hash64 s = .next s.afterHash64 := by
  show execHash64 s = _
  rw [execHash64, hash64_ok]
  rfl

/-- Nor does HASH32, which runs the same computation (rule R243). -/
theorem exec_hash32 (s : State) : exec .hash32 s = .next s.afterHash32 := by
  show execHash32 s = _
  rw [execHash32, hash64_ok, State.afterHash32, ← mix64to32_eq_closed]
  rfl

theorem exec_hash64_eq_next {s t : State} : exec .hash64 s = .next t ↔ t = s.afterHash64 := by
  rw [exec_hash64, Host.Outcome.next.injEq, eq_comm]

theorem exec_hash32_eq_next {s t : State} : exec .hash32 s = .next t ↔ t = s.afterHash32 := by
  rw [exec_hash32, Host.Outcome.next.injEq, eq_comm]

/-- Band D leaves the registers of the block sequence (rule R242). -/
theorem State.afterHash64_blk_of_long {s : State} (h : 64 < s.len.toNat) :
    s.afterHash64.blk = Reference.longRegs s.input s.blk :=
  if_neg (Nat.not_le.mpr h)

/-! ### The hash of each band -/

theorem hash64_bandA {b : List Byte} (h : b.length ≤ 16) : Reference.hash64 b = Reference.hash0to16 b := if_pos h

theorem hash64_bandB {b : List Byte} (h17 : 17 ≤ b.length) (h32 : b.length ≤ 32) :
    Reference.hash64 b = Reference.hash17to32 b := by
  rw [Reference.hash64, if_neg (by omega), if_pos h32]

theorem hash64_bandC {b : List Byte} (h33 : 33 ≤ b.length) (h64 : b.length ≤ 64) :
    Reference.hash64 b = Reference.hash33to64 b := by
  rw [Reference.hash64, if_neg (by omega), if_neg (by omega), if_pos h64]

/-- Band D's hash can be taken from any block registers (rule R247). -/
theorem hash64_bandD {b : List Byte} (r : BlockRegs) (h : 65 ≤ b.length) :
    Reference.hash64 b = Reference.lastHash (Reference.longRegs b r) := by
  rw [Reference.hash64, if_neg (by omega), if_neg (by omega), if_neg (by omega), longRegs_indep b r Reference.noRegs]

/-! ### The block sequence -/

/-- FINALIZE after the last step that was due finds TAIL and its window inside the input (43_block_loop.md rules R187 and R189). -/
theorem exec_finalize_afterSteps {s : State} (h : 65 ≤ s.len.toNat) :
    exec .finalize (s.afterSteps ((s.len.toNat - 1) / 64)) = .next s.afterHash64 := by
  have htail : (s.afterSteps ((s.len.toNat - 1) / 64)).seq = .tail := if_pos rfl
  have hwindow : (s.afterSteps ((s.len.toNat - 1) / 64)).blk.last64.toNat + 64 ≤ s.len.toNat := by
    obtain ⟨-, -, hlast, -⟩ := afterSteps_offsets (s := s) (Nat.le_refl _)
    exact (congrArg (· + 64) hlast).trans_le (by omega)
  have hregs : Reference.last s.input (s.afterSteps ((s.len.toNat - 1) / 64)).blk = Reference.longRegs s.input s.blk := by
    rw [Reference.longRegs, State.input_length]
    rfl
  rw [execFinalize_tail htail (finalize_ok hwindow), State.afterSteps_input, hregs, ← hash64_bandD s.blk (by simpa using h),
    ← State.afterHash64_blk_of_long h]
  rfl

/-- Commands that follow a list go on from the state it leaves. -/
theorem execAll_append {s t : State} {first : List Instr} (rest : List Instr) (h : Reference.execAll first s = .next t) :
    Reference.execAll (first ++ rest) s = Reference.execAll rest t := by
  induction first generalizing s with
  | nil => cases h; rfl
  | cons i first ih =>
    obtain ⟨u, hu, -⟩ | ⟨c, hu, -⟩ := exec_cases i s
    all_goals
      rw [execAll_cons _ hu] at h
      rw [List.cons_append, execAll_cons _ hu, ih h]

/-! ### Two blocks with one input -/

theorem input_eq_of_sameInput {s t : State} (h : Reference.sameInput s t) : s.input = t.input := by
  obtain ⟨hlen, hbytes⟩ := h
  exact (input_congr hlen.symm fun off hoff => (hbytes off hoff).symm).symm

/-- What HASH64 and HASH32 leave in RES0 is a function of the input, and of nothing else (rule R247). -/
theorem afterHash_results_congr {s t : State} (h : s.input = t.input) :
    s.afterHash64.res0 = t.afterHash64.res0 ∧ s.afterHash32.res0 = t.afterHash32.res0 ∧
      s.afterHash32.res1 = t.afterHash32.res1 := by
  simp only [State.afterHash64, State.afterHash32, h, and_self]

/-- In band D the block registers are too: those before the command do not matter. -/
theorem afterHash64_blk_congr {s t : State} (h : s.input = t.input) (hlong : 64 < s.len.toNat) :
    s.afterHash64.blk = t.afterHash64.blk := by
  have hlong' : 64 < t.len.toNat := by rwa [← State.input_length, ← h, State.input_length]
  rw [State.afterHash64_blk_of_long hlong, State.afterHash64_blk_of_long hlong', h, longRegs_indep t.input s.blk t.blk]

/-! ### The statements -/

/-- Settles O40: the hash is computed in every band, and no band reads outside the input. -/
theorem hash64HashesTheWholeInput : Obligations.Hash64HashesTheWholeInput := by
  unfold Obligations.Hash64HashesTheWholeInput
  exact ⟨decode_encode .hash64, fun s _ => exec_hash64 s⟩

/-- Settles O41: HASH32 computes what HASH64 does, and `mix64to32` has its closed form. -/
theorem hash32FoldsTheWholeHash : Obligations.Hash32FoldsTheWholeHash := by
  unfold Obligations.Hash32FoldsTheWholeHash
  exact ⟨decode_encode .hash32, fun s _ => exec_hash32 s⟩

/-- Settles O42: BLOCK_INIT and the steps due lead to TAIL, where FINALIZE leaves the registers and the hash of HASH64. -/
theorem blockSequenceEqualsHash64 : Obligations.BlockSequenceEqualsHash64 := by
  unfold Obligations.BlockSequenceEqualsHash64
  intro s _ h65
  have hsteps := execAll_blockSteps (s := s) ((s.len.toNat - 1) / 64) 0 (by omega)
  rw [Nat.zero_add] at hsteps
  rw [execAll_cons _ (exec_blockInit_afterSteps h65), execAll_append _ hsteps,
    execAll_cons _ (exec_finalize_afterSteps h65), exec_hash64]
  rfl

/-- Settles O43: each band command computes the hash of its band, and MIX64TO32 the fold that HASH32 computes. -/
theorem commandsAgreeOnTheHash : Obligations.CommandsAgreeOnTheHash := by
  unfold Obligations.CommandsAgreeOnTheHash
  intro s t u hs ht
  obtain rfl := exec_hash64_eq_next.mp ht
  obtain ⟨-, hbandA⟩ := hash0to16HashesBandA
  obtain ⟨hinsideA, -⟩ := hbandA s hs
  obtain ⟨-, hbandB⟩ := hash17to32HashesBandB
  obtain ⟨hinsideB, -⟩ := hbandB s hs
  obtain ⟨-, hbandC⟩ := hash33to64HashesBandC
  obtain ⟨hinsideC, -⟩ := hbandC s hs
  have hres0 : s.afterHash64.res0 = Reference.hash64 s.input := rfl
  refine ⟨fun h16 => ?bandA, fun ⟨h17, h32⟩ => ?bandB, fun ⟨h33, h64⟩ => ?bandC, fun hu => ?fold⟩
  case bandA =>
    rw [hres0, hash64_bandA (by simpa using h16)]
    exact hinsideA h16
  case bandB =>
    rw [hres0, hash64_bandB (by simpa using h17) (by simpa using h32)]
    exact hinsideB ⟨h17, h32⟩
  case bandC =>
    rw [hres0, hash64_bandC (by simpa using h33) (by simpa using h64)]
    exact hinsideC ⟨h33, h64⟩
  case fold =>
    have hfold : u.res0 = (mix64to32 s.afterHash64.res0).setWidth 64 := by
      cases hu
      rfl
    rw [exec_hash32, hfold, mix64to32_eq_closed]
    rfl

/-- Settles O45: the hash, its fold and the registers band D leaves are functions of the input. -/
theorem hashDependsOnTheInputAlone : Obligations.HashDependsOnTheInputAlone := by
  unfold Obligations.HashDependsOnTheInputAlone
  intro s t s' t' s'' t'' hsame _ _ hs' ht' hs'' ht''
  obtain rfl := exec_hash64_eq_next.mp hs'
  obtain rfl := exec_hash64_eq_next.mp ht'
  obtain rfl := exec_hash32_eq_next.mp hs''
  obtain rfl := exec_hash32_eq_next.mp ht''
  have hinput := input_eq_of_sameInput hsame
  obtain ⟨hhash, hfold, hres1⟩ := afterHash_results_congr hinput
  refine ⟨hhash, rfl, hfold, hres1, fun hlong => ?_⟩
  have hblk := afterHash64_blk_congr hinput hlong
  exact ⟨hblk, hblk⟩

end Sys2Proof.Machine
end

section
/-! SUPPORT. The statements about exceptions (60_exceptions.md): what a fault leaves in the fault registers, which commands take
SEQUENCE and BAND_LEN, and what the host can still do with a halted block. -/

namespace Sys2Proof.Machine

/-! ### The fault registers -/

/-- ILLEGAL_CMD in the fault registers (rule R261): WIDTH 0 above CODE 1, and the word. -/
theorem raiseFault_illegalCmd (s : State) (w : BitVec 32) :
    s.raiseFault (.illegalCmd w) = { s with faultCause := 1, faultInfo := w.setWidth 64 } := by
  have hcause : (0#8 ++ 1#8).setWidth 64 = 1#64 := by decide
  exact congrArg (fun cause => { s with faultCause := cause, faultInfo := w.setWidth 64 }) hcause

/-- BAND_LEN in the fault registers, whatever LEN it names (rule R261). -/
theorem raiseFault_bandLen_any (s : State) (len : Word) :
    s.raiseFault (.bandLen len) = { s with faultCause := 3, faultInfo := len } := by
  have hcause : (0#8 ++ 3#8).setWidth 64 = 3#64 := by decide
  exact congrArg (fun cause => { s with faultCause := cause, faultInfo := len }) hcause

/-- CODE 2 is SEQUENCE's alone (rule R261). -/
theorem code_eq_two {c : Trap} (h : c.code = 2) : ∃ w, c = .sequence w := by
  cases c with
  | sequence w => exact ⟨w, rfl⟩
  | illegalCmd w | bandLen len | oobRead off n => simp [Trap.code] at h

/-- CODE 3 is BAND_LEN's alone (rule R261). -/
theorem code_eq_three {c : Trap} (h : c.code = 3) : ∃ len, c = .bandLen len := by
  cases c with
  | bandLen len => exact ⟨len, rfl⟩
  | illegalCmd w | sequence w | oobRead off n => simp [Trap.code] at h

/-- A running block whose CODE is not 0 after a command has taken a fault of that command (rules R262 and R264). -/
theorem exec_faulted {i : Instr} {s t : State} (hrun : s.halted = false) (h : exec i s = .next t) (hcode : t.causeCode ≠ 0) :
    ∃ c, t = s.raiseFault c ∧ c.code = t.causeCode ∧ Faults i s c := by
  obtain hw | ⟨c, rfl, hf⟩ := exec_next h
  · obtain ⟨-, -, hcause, -⟩ := writes_keeps hw
    have hhalt : t.halted = true := (halted_iff t).mpr hcode
    rw [halted_congr hcause, hrun] at hhalt
    exact absurd hhalt (by decide)
  · exact ⟨c, rfl, (raiseFault_causeCode s c).symm, hf⟩

/-! ### Illegal words -/

/-- A word is refused by its two fields: RSV is not 0, or OPC is in no row of the map (30_encoding.md rules R83 to R85). -/
theorem decode_error_of_illegal {w : BitVec 32}
    (h : w.extractLsb' 8 24 ≠ 0 ∨ w.extractLsb' 0 8 ∉ Reference.opcodeMap.map Prod.fst) : ∃ e, decode w = .error e := by
  cases hd : decode w with
  | error e => exact ⟨e, rfl⟩
  | ok i =>
    obtain ⟨hrsv, hopc⟩ := decode_eq_ok.mp hd
    obtain hrsv' | hopc' := h
    · exact absurd hrsv hrsv'
    · exact absurd (List.mem_map_of_mem (mem_opcodeMap.mpr hopc)) hopc'

/-! ### SEQUENCE -/

/-- A block command in a SEQ state that does not accept it (rule R268). -/
def OutOfOrder (i : Instr) (s : State) : Prop := (i = .blockStep ∧ s.seq ≠ .loop) ∨ (i = .finalize ∧ s.seq ≠ .tail)

/-- The fault SEQUENCE names the word of the block command that came out of order (rule R268). -/
theorem outOfOrder_of_faults {i : Instr} {s : State} {w : BitVec 32} (h : Faults i s (.sequence w)) :
    OutOfOrder i s ∧ w = encode i := by
  cases i with
  | blockStep =>
    obtain ⟨hq, hc⟩ | ⟨-, -, off, hc⟩ := h
    · cases hc
      exact ⟨.inl ⟨rfl, hq⟩, rfl⟩
    · exact nomatch hc
  | finalize =>
    obtain ⟨hq, hc⟩ | ⟨-, -, off, hc⟩ := h
    · cases hc
      exact ⟨.inr ⟨rfl, hq⟩, rfl⟩
    · exact nomatch hc
  | fetch8 | fetch32 | fetch64 => exact nomatch h
  | weakmixMem =>
    obtain ⟨off, hc⟩ := h
    exact nomatch hc
  | hash0to16 | hash17to32 | hash33to64 | blockInit => exact nomatch h.2
  | _ => exact h.elim

/-- The check of SEQ comes before anything else the command does (rule R266). -/
theorem exec_outOfOrder {i : Instr} {s : State} (h : OutOfOrder i s) :
    exec i s = .next { s with faultCause := 2, faultInfo := (encode i).setWidth 64 } := by
  obtain ⟨rfl, hq⟩ | ⟨rfl, hq⟩ := h
  · exact (execBlockStep_order hq).trans (congrArg _ (raiseFault_sequence s _))
  · exact (execFinalize_order hq).trans (congrArg _ (raiseFault_sequence s _))

/-- CODE 2 after a command on a running block shows that it came out of order, and nothing else was written (rule R268). -/
theorem outOfOrder_of_exec {i : Instr} {s t : State} (hrun : s.halted = false) (h : exec i s = .next t)
    (hcode : t.causeCode = 2) :
    OutOfOrder i s ∧ t = { s with faultCause := 2, faultInfo := (encode i).setWidth 64 } := by
  obtain ⟨c, rfl, hc, hf⟩ := exec_faulted hrun h (by rw [hcode]; decide)
  obtain ⟨w, rfl⟩ := code_eq_two (hc.trans hcode)
  obtain ⟨hout, rfl⟩ := outOfOrder_of_faults hf
  exact ⟨hout, raiseFault_sequence s _⟩

/-! ### BAND_LEN -/

/-- A command that checks LEN, on an input outside its band (rule R269). -/
def OutsideBand (i : Instr) (s : State) : Prop :=
  (i = .hash0to16 ∧ 16 < s.len.toNat) ∨ (i = .hash17to32 ∧ (s.len.toNat < 17 ∨ 32 < s.len.toNat)) ∨
    (i = .hash33to64 ∧ (s.len.toNat < 33 ∨ 64 < s.len.toNat)) ∨ (i = .blockInit ∧ s.len.toNat < 65)

/-- The fault BAND_LEN names LEN (rule R269). -/
theorem outsideBand_of_faults {i : Instr} {s : State} {len : Word} (h : Faults i s (.bandLen len)) :
    OutsideBand i s ∧ len = s.len := by
  cases i with
  | hash0to16 | hash17to32 | hash33to64 | blockInit =>
    obtain ⟨hout, hc⟩ := h
    exact ⟨by simpa [OutsideBand] using hout, Trap.bandLen.inj hc⟩
  | blockStep | finalize =>
    obtain ⟨-, hc⟩ | ⟨-, -, off, hc⟩ := h
    · exact nomatch hc
    · exact nomatch hc
  | fetch8 | fetch32 | fetch64 => exact nomatch h
  | weakmixMem =>
    obtain ⟨off, hc⟩ := h
    exact nomatch hc
  | _ => exact h.elim

/-- The check of LEN is made before any read (rule R269). -/
theorem exec_outsideBand {i : Instr} {s : State} (h : OutsideBand i s) :
    exec i s = .next { s with faultCause := 3, faultInfo := s.len } := by
  obtain ⟨rfl, hout⟩ | ⟨rfl, hout⟩ | ⟨rfl, hout⟩ | ⟨rfl, hout⟩ := h <;> exact complete_outside_band _ hout

/-- CODE 3 after a command on a running block shows that LEN is outside its band, and nothing else was written (rule R269). -/
theorem outsideBand_of_exec {i : Instr} {s t : State} (hrun : s.halted = false) (h : exec i s = .next t)
    (hcode : t.causeCode = 3) : OutsideBand i s ∧ t = { s with faultCause := 3, faultInfo := s.len } := by
  obtain ⟨c, rfl, hc, hf⟩ := exec_faulted hrun h (by rw [hcode]; decide)
  obtain ⟨len, rfl⟩ := code_eq_three (hc.trans hcode)
  obtain ⟨hout, rfl⟩ := outsideBand_of_faults hf
  exact ⟨hout, raiseFault_bandLen s⟩

/-- A command that checks LEN has no other fault: inside its band no read fails (rule R269). -/
theorem faults_of_band_check {i : Instr} {s : State} {c : Trap}
    (hi : i ∈ ([.hash0to16, .hash17to32, .hash33to64, .blockInit] : List Instr)) (h : Faults i s c) : c = .bandLen s.len := by
  simp only [List.mem_cons, List.not_mem_nil, or_false] at hi
  obtain rfl | rfl | rfl | rfl := hi <;> exact h.2

/-! ### The halted block -/

/-- No action but RESET writes the fault registers of a halted block (rule R264). -/
theorem perform_keepsFault_of_halted {a : HostAction} {s t : State} (hhalt : s.halted = true) (h : perform a s = .next t)
    (ha : a ≠ .reset) : Reference.keepsFault s t := by
  obtain ⟨hreset, -⟩ | ⟨b, -, h⟩ | ⟨w, h⟩ | ⟨num, v, r, -, rfl⟩ | ⟨num, v, -, rfl⟩ | ⟨num, -, rfl⟩ := perform_next h
  · exact absurd hreset ha
  · obtain ⟨-, -, rfl⟩ := hostLoad_next h
    exact ⟨rfl, rfl⟩
  · rw [issue_halted w hhalt] at h
    cases h
    exact ⟨rfl, rfl⟩
  · exact ⟨writeReg_faultCause s r v, writeReg_faultInfo s r v⟩
  · exact ⟨rfl, rfl⟩
  · exact ⟨rfl, rfl⟩

/-- OP0 to OP5 read back what the host wrote (10_state.md rule R38). -/
theorem perform_write_operand (s : State) {num : BitVec 8} (v : Word)
    (h : num ∈ ([0x08, 0x09, 0x0A, 0x0B, 0x0C, 0x0D] : List (BitVec 8))) :
    ∃ t, perform (.write num v) s = .next t ∧ readNumber t num = v := by
  simp only [List.mem_cons, List.not_mem_nil, or_false] at h
  obtain rfl | rfl | rfl | rfl | rfl | rfl := h <;> exact ⟨_, rfl, rfl⟩

/-- A load that is taken makes its bytes the input (10_state.md rule R44). -/
theorem hostLoad_input {maxLen : Nat} {b : List Byte} {s t : State} (h : hostLoad maxLen b s = .next t) : t.input = b := by
  obtain ⟨-, hlen, rfl⟩ := hostLoad_next h
  exact input_ofBytes rfl ((BitVec.toNat_ofNat _ _).trans (Nat.mod_eq_of_lt hlen))

/-! ### The statements -/

/-- Settles O4: the decoder refuses the word, whatever the state. -/
theorem illegalWordRaisesIllegalCmd : Obligations.IllegalWordRaisesIllegalCmd := by
  unfold Obligations.IllegalWordRaisesIllegalCmd
  intro w s hrun hw
  obtain ⟨e, he⟩ := decode_error_of_illegal hw
  rw [issue_illegal hrun he, raiseFault_illegalCmd]

/-- Settles O32: CODE 3 is BAND_LEN's alone, and the commands that check LEN have no other fault. -/
theorem bandLenExactlyOutsideTheBand : Obligations.BandLenExactlyOutsideTheBand := by
  unfold Obligations.BandLenExactlyOutsideTheBand
  intro i s t hrun h
  have hexec (hcause : t.faultCause = 3) : OutsideBand i s ∧ t = { s with faultCause := 3, faultInfo := s.len } :=
    outsideBand_of_exec hrun h (by rw [State.causeCode, hcause]; decide)
  refine ⟨⟨fun hcause => (hexec hcause).1, fun hout => ?_⟩, fun hcause => (hexec hcause).2, fun hi hcode => ?_⟩
  · cases h.symm.trans (exec_outsideBand hout)
    rfl
  · obtain ⟨c, -, hc, hf⟩ := exec_faulted hrun h (by rw [State.causeCode, hcode]; decide)
    obtain rfl := faults_of_band_check hi hf
    exact absurd (hc.trans hcode) (show ¬(3#8 = 4) by decide)

/-- Settles O47: an ISSUE is ignored, and of the other actions only RESET writes the fault registers. -/
theorem haltedUntilReset : Obligations.HaltedUntilReset := by
  unfold Obligations.HaltedUntilReset
  refine fun s => ⟨halted_iff s, fun hhalt => ⟨fun w => issue_halted w hhalt, fun a t h ha => ?_, ⟨_, rfl, rfl⟩,
    fun num => ⟨_, rfl, rfl⟩, fun num v => perform_write_operand s v, fun b hcap hlen => ?_⟩⟩
  · obtain ⟨hcause, hinfo⟩ := perform_keepsFault_of_halted hhalt h ha
    exact ⟨(halted_congr hcause).trans hhalt, hcause, hinfo⟩
  · have hload := hostLoad_fits s hcap hlen
    exact ⟨_, hload, hostLoad_input hload⟩

/-- Settles O48: a command writes what it may write, and the fault registers are not among it, or it takes a fault. -/
theorem commandsAreAllOrNothing : Obligations.CommandsAreAllOrNothing := by
  unfold Obligations.CommandsAreAllOrNothing
  intro i s hrun
  obtain ⟨t, ht, hw⟩ | ⟨c, ht, -⟩ := exec_cases i s
  · obtain ⟨-, -, hfault⟩ := writes_keeps hw
    exact ⟨t, ht, .inl ⟨(halted_congr hfault.1).trans hrun, hfault⟩⟩
  · exact ⟨_, ht, .inr ⟨raiseFault_halted s c, rfl⟩⟩

/-- Settles O49: CODE 2 is SEQUENCE's alone, and only a block command out of order takes it. -/
theorem sequenceFaultExactlyOutOfOrder : Obligations.SequenceFaultExactlyOutOfOrder := by
  unfold Obligations.SequenceFaultExactlyOutOfOrder
  intro i s t hrun h
  have hexec (hcause : t.faultCause = 2) :
      OutOfOrder i s ∧ t = { s with faultCause := 2, faultInfo := (encode i).setWidth 64 } :=
    outOfOrder_of_exec hrun h (by rw [State.causeCode, hcause]; decide)
  refine ⟨⟨fun hcause => (hexec hcause).1, fun hout => ?_⟩, fun hcause => (hexec hcause).2⟩
  cases h.symm.trans (exec_outOfOrder hout)
  rfl

/-- Settles O14: the two checks of a load, the capacity first. -/
theorem loadsThatDoNotFitAreRefused : Obligations.LoadsThatDoNotFitAreRefused := by
  unfold Obligations.LoadsThatDoNotFitAreRefused
  intro maxLen b s
  exact ⟨fun hcap => if_pos hcap, fun hcap hlen => (if_neg (Nat.not_lt.mpr hcap)).trans (if_pos hlen)⟩

/-- Settles O46, from the fault registers of each cause. -/
theorem faultEntryWritesTheFaultRegisters : Obligations.FaultEntryWritesTheFaultRegisters := by
  unfold Obligations.FaultEntryWritesTheFaultRegisters
  exact fun s => ⟨raiseFault_illegalCmd s, raiseFault_sequence s, raiseFault_bandLen_any s,
    fun off n hn => raiseFault_oobRead s off (by omega), raiseFault_halted s⟩

end Sys2Proof.Machine
end

section
/-! SUPPORT. The statements about reset and the hazards of a load (70_reset_and_hazards.md): what the host reads after RESET and at
power-on, the invariants there, the block sequence a load abandons, and a whole call of the hash. -/

namespace Sys2Proof.Machine

/-! ### Reset and power-on -/

/-- A constant reads the same in every state (10_state.md rule R36). -/
theorem readReg_constant (s t : State) {r : Reg} (h : r ∈ ([.k0, .k1, .k2, .c1, .c2, .seed] : List Reg)) :
    readReg t r = readReg s r := by
  simp only [List.mem_cons, List.not_mem_nil, or_false] at h
  obtain rfl | rfl | rfl | rfl | rfl | rfl := h <;> rfl

/-- Every register below the constants reads 0 in the reset state, STATUS as well (rule R301, 10_state.md rule R35). -/
theorem readReg_reset {r : Reg} (h : (regNumber r).toNat < 0x30) : readReg State.reset r = 0 := by
  cases r with
  | k0 | k1 | k2 | c1 | c2 | seed => exact absurd h (by decide)
  | _ => rfl

/-! ### A block command out of order -/

/-- The host's ISSUE of a block command out of order, on a running block, takes SEQUENCE with its word (60_exceptions.md rule R268). -/
theorem issue_outOfOrder {i : Instr} {s : State} (hrun : s.halted = false) (h : OutOfOrder i s) :
    issue (encode i) s = .next { s with faultCause := 2, faultInfo := (encode i).setWidth 64 } :=
  (issue_legal hrun (decode_encode i)).trans (exec_outOfOrder h)

/-! ### The statements -/

/-- Settles O44: the load makes the bytes the input, and HASH64 and HASH32 are functions of the input. -/
theorem loadThenHashIsTheFunction : Obligations.LoadThenHashIsTheFunction := by
  unfold Obligations.LoadThenHashIsTheFunction
  intro maxLen b s _ hcap hlen
  obtain ⟨t, hload⟩ : ∃ t, hostLoad maxLen b s = .next t := ⟨_, hostLoad_fits s hcap hlen⟩
  obtain rfl := hostLoad_input hload
  exact ⟨t, t.afterHash64, t.afterHash32, hload, rfl, exec_hash64 t, rfl, exec_hash32 t, rfl, rfl⟩

/-- Settles O8: RESET leaves the fields of the reset state, and no state has a say in what a constant reads. -/
theorem resetSetsEveryRegister : Obligations.ResetSetsEveryRegister := by
  unfold Obligations.ResetSetsEveryRegister
  intro s
  exact ⟨s.hostReset, rfl, rfl, rfl, rfl, rfl, rfl, rfl, rfl, rfl, rfl, rfl, rfl, rfl, rfl, rfl, rfl, rfl, rfl, rfl, rfl, rfl,
    rfl, rfl, rfl, fun _ => readReg_constant s s.hostReset⟩

/-- Settles O9: a number below the constants is a register's, which reads 0 at reset, or unassigned. -/
theorem powerOnReadsZero : Obligations.PowerOnReadsZero := by
  unfold Obligations.PowerOnReadsZero
  refine ⟨fun num hnum => ?_, rfl, rfl⟩
  by_cases hmap : num ∈ allRegs.map regNumber
  · obtain ⟨r, -, rfl⟩ := List.mem_map.mp hmap
    rw [readNumber_regNumber, readReg_reset hnum]
  · exact readNumber_unassigned _ hmap

/-- Settles O15: the load closes the sequence, and both block commands that go on with one are then out of order. -/
theorem hostLoadAbandonsTheSequence : Obligations.HostLoadAbandonsTheSequence := by
  unfold Obligations.HostLoadAbandonsTheSequence
  intro maxLen b s t h
  obtain ⟨-, -, rfl⟩ := hostLoad_next h
  refine ⟨rfl, rfl, rfl, rfl, fun hrun => ⟨?blockStep, ?finalize⟩⟩
  case blockStep => exact issue_outOfOrder (i := .blockStep) hrun (.inl ⟨rfl, nofun⟩)
  case finalize => exact issue_outOfOrder (i := .finalize) hrun (.inr ⟨rfl, nofun⟩)

/-- Settles O55: RESET establishes each invariant that every step keeps, and at power-on it changes nothing. -/
theorem resetMeetsTheInvariants : Obligations.ResetMeetsTheInvariants := by
  unfold Obligations.ResetMeetsTheInvariants
  obtain ⟨hinput, hcapacity⟩ := inputForm_kept.reset State.reset
  exact ⟨blockInv_kept.reset State.reset, hinput, hcapacity, faultInv_kept.reset State.reset⟩

end Sys2Proof.Machine
end
